-- ==== Sys2Proof/Config.lean ====
section
/-! DEFINITION. The fixed parameters of the nevada numeric kernel (spec/00_scope.md rule R7). The NK leaves
no parameter open, so nothing here is a free value: each is a plain number the spec gives. The port widths
(32, 64, 128 bits; 16 slots) are in the types of Word.lean. -/

namespace Sys2Proof.Config

/-- Largest bit count of `mask` (R7 "0..32 (`mask`)", R100). -/
@[simp] abbrev maskLimit : Nat := 32

/-- Largest bit count of `maskLong` (R7 "0..64 (`maskLong`)", R101). -/
@[simp] abbrev maskLongLimit : Nat := 64

/-- Width of the zero- and sign-extension datapath (R7, R102, R103). -/
@[simp] abbrev extendWidth : Nat := 64

/-- Number of lane slots of `LIN` and of `LOUT` (R7, R23, R24). -/
@[simp] abbrev slotCount : Nat := 16

/-- The binary32 default NaN (R7, R170). -/
@[simp] abbrev defaultNaN32 : BitVec 32 := 0x7FC00000#32

/-- The binary64 default NaN (R7, R171). -/
@[simp] abbrev defaultNaN64 : BitVec 64 := 0x7FF8000000000000#64

/-- `QC` after reset (R7, R230). -/
@[simp] abbrev qcAtReset : Bool := false

end Sys2Proof.Config
end

