-- ==== Sys2Proof/Word.lean ====
section
/-! DEFINITION. The word types of the NK's ports (spec/00_scope.md R7, spec/10_state.md R23, R24). -/

namespace Sys2Proof

/-- A byte, the unit a stored command word is cut into (R42). -/
abbrev Byte := BitVec 8

/-- A command word, as it stands on `CMD` (R60). -/
abbrev Word := BitVec 32

/-- A value on one of the 128-bit ports `A`, `B`, `R` (R7). -/
abbrev Port := BitVec 128

/-- A value in one 64-bit lane slot of `LIN` or `LOUT` (R7). -/
abbrev Slot := BitVec 64

/-- The sixteen lane slots of `LIN` or of `LOUT` (R7, R23, R24). -/
abbrev Slots := Vector Slot 16

end Sys2Proof
end

