-- ==== Sys2Proof/Syntax.lean ====
section
/-! DEFINITION. The abstract syntax of the NK's commands: one constructor per row of spec/opcode_table.json
(spec/30_encoding.md R62). A command's fields are the parameters its rule names (R11, R63 to R66). -/

namespace Sys2Proof

/-- The element width `W` that the code `LW` selects (R63). -/
inductive LaneWidth where
  | w8 | w16 | w32 | w64
deriving DecidableEq, Repr

/-- The container width `C` that the code `CW` selects (R64); the fourth code is reserved and has no name. -/
inductive ContainerWidth where
  | c32 | c64 | c128
deriving DecidableEq, Repr

/-- How a saturating command reads its operands, the field `S` (R65). -/
inductive Signedness where
  | unsigned | signed
deriving DecidableEq, Repr

/-- A command of the NK (R62). The bit count `n` of the first four is the number in the 7-bit field `N`
(R66): `WellFormed.lean` says which numbers the field can hold, and the command itself checks its own range
(DESIGN CHOICE, safe: notes/assumptions/10.md). -/
inductive Instr where
  | mask (n : Nat)
  | maskLong (n : Nat)
  | zeroExtend (n : Nat)
  | signExtend (n : Nat)
  | splitLanes (w : LaneWidth) (c : ContainerWidth)
  | packLanes (w : LaneWidth) (c : ContainerWidth)
  | saturatingAdd (w : LaneWidth) (g : Signedness)
  | saturatingSub (w : LaneWidth) (g : Signedness)
  | bitsOfFloat32
  | float32OfBits
  | bitsOfDouble
  | doubleOfBits
  | defaultNaN32
  | defaultNaN64
  | readQC
  | writeQC
deriving DecidableEq, Repr

end Sys2Proof
end

