-- ==== Sys2Proof/WellFormed.lean ====
section
/-! DEFINITION. Which commands have an encoding (spec/30_encoding.md R66, R71). The only operand that can be
out of an encoding's reach is a bit count: `N` has seven bits. A count the field holds but the command refuses
(`mask #40`) is well formed: that check is the command's (R66). -/

namespace Sys2Proof

/-- The bit count fits the 7-bit field `N`: "0 ≤ n ≤ 127" (R66). -/
def countFits (n : Nat) : Bool := decide (n ≤ 127)

/-- The command has a word (R71). -/
def Instr.wellFormed : Instr → Bool
  | .mask n => countFits n
  | .maskLong n => countFits n
  | .zeroExtend n => countFits n
  | .signExtend n => countFits n
  | .splitLanes _ _ => true
  | .packLanes _ _ => true
  | .saturatingAdd _ _ => true
  | .saturatingSub _ _ => true
  | .bitsOfFloat32 => true
  | .float32OfBits => true
  | .bitsOfDouble => true
  | .doubleOfBits => true
  | .defaultNaN32 => true
  | .defaultNaN64 => true
  | .readQC => true
  | .writeQC => true

end Sys2Proof
end

