-- ==== Sys2Proof/Decode.lean ====
section
/-! DEFINITION. The decoder and the encoder of NK command words (spec/30_encoding.md R60 to R71), and the
stored form of a word (spec/20_memory.md R42). The decoder is written from the field table R61, the opcode map
R62 and the checks of R69 in the order R69 gives them; the encoder is written from the word formulas of R71. -/

namespace Sys2Proof

/-! ## Fields -/

/-- The fields of format K (R61). -/
structure Fields where
  op  : BitVec 5
  lw  : BitVec 2
  cw  : BitVec 2
  s   : BitVec 1
  n   : BitVec 7
  res : BitVec 15
deriving DecidableEq, Repr

/-- Cut a command word into its fields: `OP` [4:0], `LW` [6:5], `CW` [8:7], `S` [9], `N` [16:10],
`RES` [31:17] (R61). -/
def fieldsOf (cmd : Word) : Fields where
  op  := cmd.extractLsb' 0 5
  lw  := cmd.extractLsb' 5 2
  cw  := cmd.extractLsb' 7 2
  s   := cmd.extractLsb' 9 1
  n   := cmd.extractLsb' 10 7
  res := cmd.extractLsb' 17 15

/-- The element width of the code `LW`: 0, 1, 2, 3 give 8, 16, 32, 64 (R63). -/
def LaneWidth.ofCode (lw : BitVec 2) : LaneWidth :=
  match lw.toNat with
  | 0 => .w8
  | 1 => .w16
  | 2 => .w32
  | _ => .w64

/-- The code `LW` of an element width (R63). -/
def LaneWidth.code : LaneWidth → BitVec 2
  | .w8 => 0
  | .w16 => 1
  | .w32 => 2
  | .w64 => 3

/-- The element width `W` in bits (R63). -/
def LaneWidth.bits : LaneWidth → Nat
  | .w8 => 8
  | .w16 => 16
  | .w32 => 32
  | .w64 => 64

/-- The container width of the code `CW`: 0, 1, 2 give 32, 64, 128, and 3 is reserved (R64). -/
def ContainerWidth.ofCode (cw : BitVec 2) : Option ContainerWidth :=
  match cw.toNat with
  | 0 => some .c32
  | 1 => some .c64
  | 2 => some .c128
  | _ => none

/-- The code `CW` of a container width (R64). -/
def ContainerWidth.code : ContainerWidth → BitVec 2
  | .c32 => 0
  | .c64 => 1
  | .c128 => 2

/-- The container width `C` in bits (R64). -/
def ContainerWidth.bits : ContainerWidth → Nat
  | .c32 => 32
  | .c64 => 64
  | .c128 => 128

/-- The signedness of the bit `S`: 0 unsigned, 1 signed (R65). -/
def Signedness.ofCode (s : BitVec 1) : Signedness :=
  if s = 1#1 then .signed else .unsigned

/-- The bit `S` of a signedness (R65). -/
def Signedness.code : Signedness → BitVec 1
  | .unsigned => 0
  | .signed => 1

/-! ## The opcode map -/

/-- The sixteen operations of the opcode map (R62). -/
inductive Opcode where
  | mask | maskLong | zeroExtend | signExtend | splitLanes | packLanes | saturatingAdd | saturatingSub
  | bitsOfFloat32 | float32OfBits | bitsOfDouble | doubleOfBits | defaultNaN32 | defaultNaN64 | readQC | writeQC
deriving DecidableEq, Repr

/-- The operation of an `OP` value; 0x00 and 0x11 to 0x1F are reserved (R62, R70). -/
def Opcode.ofBits (op : BitVec 5) : Option Opcode :=
  match op.toNat with
  | 0x01 => some .mask
  | 0x02 => some .maskLong
  | 0x03 => some .zeroExtend
  | 0x04 => some .signExtend
  | 0x05 => some .splitLanes
  | 0x06 => some .packLanes
  | 0x07 => some .saturatingAdd
  | 0x08 => some .saturatingSub
  | 0x09 => some .bitsOfFloat32
  | 0x0A => some .float32OfBits
  | 0x0B => some .bitsOfDouble
  | 0x0C => some .doubleOfBits
  | 0x0D => some .defaultNaN32
  | 0x0E => some .defaultNaN64
  | 0x0F => some .readQC
  | 0x10 => some .writeQC
  | _ => none

/-- Which fields beside `OP` an operation uses. -/
structure FieldUse where
  lw : Bool
  cw : Bool
  s  : Bool
  n  : Bool
deriving DecidableEq, Repr

/-- The column "fields used" of the opcode map (R62). -/
def Opcode.uses : Opcode → FieldUse
  | .mask | .maskLong | .zeroExtend | .signExtend => ⟨false, false, false, true⟩
  | .splitLanes | .packLanes => ⟨true, true, false, false⟩
  | .saturatingAdd | .saturatingSub => ⟨true, false, true, false⟩
  | .bitsOfFloat32 | .float32OfBits | .bitsOfDouble | .doubleOfBits
  | .defaultNaN32 | .defaultNaN64 | .readQC | .writeQC => ⟨false, false, false, false⟩

/-- The command of an operation with its field values (R69 "return (op, W, C, s, n)"). -/
def Opcode.command (w : LaneWidth) (c : ContainerWidth) (g : Signedness) (n : Nat) : Opcode → Instr
  | .mask => .mask n
  | .maskLong => .maskLong n
  | .zeroExtend => .zeroExtend n
  | .signExtend => .signExtend n
  | .splitLanes => .splitLanes w c
  | .packLanes => .packLanes w c
  | .saturatingAdd => .saturatingAdd w g
  | .saturatingSub => .saturatingSub w g
  | .bitsOfFloat32 => .bitsOfFloat32
  | .float32OfBits => .float32OfBits
  | .bitsOfDouble => .bitsOfDouble
  | .doubleOfBits => .doubleOfBits
  | .defaultNaN32 => .defaultNaN32
  | .defaultNaN64 => .defaultNaN64
  | .readQC => .readQC
  | .writeQC => .writeQC

/-! ## Decoding -/

/-- Which check of R69 refuses a word. The hardware reports all of them as `ReservedEncoding` (R70). -/
inductive Reserved where
  /-- `OP` is 0x00 or 0x11 to 0x1F. -/
  | opcode
  /-- `RES` is not zero (R68). -/
  | resBits
  /-- `LW` is not zero and the operation does not use it (R67). -/
  | unusedLW
  /-- `CW` is not zero and the operation does not use it (R67). -/
  | unusedCW
  /-- `S` is not zero and the operation does not use it (R67). -/
  | unusedS
  /-- `N` is not zero and the operation does not use it (R67). -/
  | unusedN
  /-- `CW` is 3 and the operation uses it (R64). -/
  | containerCode
deriving DecidableEq, Repr

/-- "Every 32-bit word decodes to exactly one of: a command with its field values, or `ReservedEncoding`"
(R69), with R69's checks in R69's order. -/
def decode (cmd : Word) : Except Reserved Instr :=
  let f := fieldsOf cmd
  match Opcode.ofBits f.op with
  | none => .error .opcode
  | some op =>
    if f.res ≠ 0 then .error .resBits
    else if op.uses.lw = false ∧ f.lw ≠ 0 then .error .unusedLW
    else if op.uses.cw = false ∧ f.cw ≠ 0 then .error .unusedCW
    else if op.uses.s = false ∧ f.s ≠ 0 then .error .unusedS
    else if op.uses.n = false ∧ f.n ≠ 0 then .error .unusedN
    else
      match ContainerWidth.ofCode f.cw with
      | none => .error .containerCode
      | some c => .ok (op.command (.ofCode f.lw) c (.ofCode f.s) f.n.toNat)

/-! ## Encoding -/

/-- A word with one field's value put at its place: `v << at`. -/
def fieldAt (k : Nat) (v : Nat) : Word := BitVec.ofNat 32 v <<< k

/-- The word of a well-formed command, by the formulas of R71 (`n << 10`, `lw << 5`, `cw << 7`, `s << 9`). -/
def encode : Instr → Word
  | .mask n => 0x00000001#32 ||| fieldAt 10 n
  | .maskLong n => 0x00000002#32 ||| fieldAt 10 n
  | .zeroExtend n => 0x00000003#32 ||| fieldAt 10 n
  | .signExtend n => 0x00000004#32 ||| fieldAt 10 n
  | .splitLanes w c => 0x00000005#32 ||| fieldAt 5 w.code.toNat ||| fieldAt 7 c.code.toNat
  | .packLanes w c => 0x00000006#32 ||| fieldAt 5 w.code.toNat ||| fieldAt 7 c.code.toNat
  | .saturatingAdd w g => 0x00000007#32 ||| fieldAt 5 w.code.toNat ||| fieldAt 9 g.code.toNat
  | .saturatingSub w g => 0x00000008#32 ||| fieldAt 5 w.code.toNat ||| fieldAt 9 g.code.toNat
  | .bitsOfFloat32 => 0x00000009#32
  | .float32OfBits => 0x0000000A#32
  | .bitsOfDouble => 0x0000000B#32
  | .doubleOfBits => 0x0000000C#32
  | .defaultNaN32 => 0x0000000D#32
  | .defaultNaN64 => 0x0000000E#32
  | .readQC => 0x0000000F#32
  | .writeQC => 0x00000010#32

/-! ## Stored words -/

/-- The four bytes of a stored command word, "least significant byte at the lowest address" (R42). -/
def bytesOfWord (cmd : Word) : List Byte :=
  [cmd.extractLsb' 0 8, cmd.extractLsb' 8 8, cmd.extractLsb' 16 8, cmd.extractLsb' 24 8]

/-- The command word of four stored bytes, lowest address first (R42). -/
def wordOfBytes (b0 b1 b2 b3 : Byte) : Word := b3 ++ b2 ++ b1 ++ b0

/-- A stored sequence of command words as bytes (R42). -/
def bytesOfWords (cmds : List Word) : List Byte := cmds.flatMap bytesOfWord

/-- The command words of a stored byte listing; a listing that does not end on a word has none (R42, R60). -/
def wordsOfBytes : List Byte → Option (List Word)
  | [] => some []
  | b0 :: b1 :: b2 :: b3 :: rest => (wordsOfBytes rest).map (wordOfBytes b0 b1 b2 b3 :: ·)
  | _ => none

/-- Decode the command at the front of a byte listing: the command and the bytes after it, or, where fewer
than four bytes are left or the word is reserved, nothing. -/
def decodeBytes : List Byte → Option (Instr × List Byte)
  | b0 :: b1 :: b2 :: b3 :: rest =>
    match decode (wordOfBytes b0 b1 b2 b3) with
    | .ok i => some (i, rest)
    | .error _ => none
  | _ => none

/-- The 32-bit command word whose low `nbits` bits are those of `w` and whose other bits are 0. -/
def tableWord (nbits w : Nat) : Word := BitVec.ofNat 32 (w % 2 ^ nbits)

/-- What the decoder reads from a row's word, stored as R42 says and read back. -/
def decodeTableWord (nbits w : Nat) : Option Instr :=
  (decodeBytes (bytesOfWord (tableWord nbits w))).map Prod.fst

end Sys2Proof
end

