-- ==== Sys2Proof/Machine/State.lean ====
section
/-! DEFINITION. The state of the NK as plain data (spec/10_state.md R20 to R31), and its reset value
(spec/70_reset_and_hazards.md R230, R231).

The NK's architectural state is one bit, `qc` (R20). A step of the model is a function of State alone, so State
also holds the values on the NK's ports (R23, R24) and the commands the host has still to issue (R236). None of
these is read by a later command except as the host's own input: see notes/assumptions/2.md and 3.md. -/

namespace Sys2Proof.Machine

/-- The input ports, as the host drives them for one command (R23). -/
structure Ports where
  /-- `CMD`, the command word. -/
  cmd : Word
  /-- `A`. -/
  a : Port
  /-- `B`. -/
  b : Port
  /-- `LIN[0..15]`. -/
  lin : Slots
deriving DecidableEq, Repr

/-- The values a completed command delivers on the output ports (R24). -/
structure Outputs where
  /-- `R`. -/
  r : Port
  /-- `LOUT[0..15]`. -/
  lout : Slots
  /-- `SAT`. -/
  sat : Bool
deriving DecidableEq, Repr

/-- The offending values that `InvalidWidth` records: "`n`, or `W` and `C`" (R200). -/
inductive WidthInfo where
  /-- The bit count of `mask`, `maskLong`, `zeroExtend` or `signExtend`. -/
  | count (n : Nat)
  /-- The element and the container width of `splitLanes` or `packLanes`. -/
  | lanes (w : LaneWidth) (c : ContainerWidth)
deriving DecidableEq, Repr

/-- The NK's two faults with the information each records (R200). -/
inductive FaultReport where
  /-- The command word is reserved (R70). -/
  | reservedEncoding (cmd : Word)
  /-- A width or bit count is outside the command's legal range (R202). -/
  | invalidWidth (cmd : Word) (info : WidthInfo)
deriving DecidableEq, Repr

/-- The outcome of a command: it completed and delivers its outputs, or it faulted and delivers none
(R22, R201). -/
inductive CommandOutcome where
  | ok (o : Outputs)
  | fault (f : FaultReport)
deriving DecidableEq, Repr

/-- The machine. -/
structure State where
  /-- `QC`, the sticky cumulative-saturation flag: the whole of the NK's architectural state (R20, R21). -/
  qc : Bool
  /-- What the host drives on the input ports for the command at hand (R23). DESIGN CHOICE, safe: it stands in
  State because a step is a function of State (notes/assumptions/2.md). -/
  ports : Ports
  /-- The outcome of the command of the last step, as the output ports show it; none where no output is
  valid (R24, R231). DESIGN CHOICE, safe: an observation, which no command reads (notes/assumptions/3.md). -/
  out : Option CommandOutcome
  /-- The commands the host has still to issue, each with its input ports, in issue order (R234, R236). DESIGN
  CHOICE, safe: the model's own field (notes/assumptions/2.md). -/
  pending : List Ports
deriving DecidableEq, Repr

/-- Reasons for which the NK would stop. It has none: a fault is the outcome of its command and "does not end
a run" (R205, R236), so it is a next state here. DEDUCED (notes/assumptions/1.md). No meaning and no step raises
one (safe: there is nothing to raise). -/
inductive Fault : Type
deriving DecidableEq, Repr

/-- Reasons for which the model would refuse to run a command. -/
inductive Refusal where
  /-- The command of this mnemonic has no meaning yet. Only an arm of `exec` may raise it, and none does (safe:
  it stops the model where the hardware goes on). -/
  | notModelled (mnemonic : String)
deriving DecidableEq, Repr

/-- What a meaning answers. -/
abbrev Answer := Host.Outcome State Fault Refusal

/-- Sixteen lane slots of zeros (R25). -/
def zeroSlots : Slots := Vector.replicate 16 0#64

/-- The input ports before the host has driven any command. DESIGN CHOICE, unsafe
(notes/assumptions/4.md): zero. -/
def idlePorts : Ports where
  cmd := 0#32
  a := 0#128
  b := 0#128
  lin := zeroSlots

/-- "After reset, `QC = 0`" (R230); "no output is valid and no command is in flight" (R231). -/
def State.reset : State where
  qc := Config.qcAtReset
  ports := idlePorts
  out := none
  pending := []

end Sys2Proof.Machine
end

