-- ==== Sys2Proof/Machine/Operands.lean ====
section
/-! DEFINITION. How commands read bits from the ports and form values for them: the primitives of
spec/00_scope.md R8 to R10, the lane placement of spec/41_lanes.md R121, R122 and the operand reading of
spec/42_saturating.md R141. -/

namespace Sys2Proof.Machine

/-- `v[n-1:0]`, the low `n` bits of a port (R8). -/
def lowBits (n : Nat) (v : Port) : BitVec n := v.setWidth n

/-- The low `n` bits of a lane slot, `LIN[i][n-1:0]` (R8, R124). -/
def slotBits (n : Nat) (v : Slot) : BitVec n := v.setWidth n

/-- A result narrower than 128 bits goes to the low bits of `R`, "and the rest of `R` is zero":
`zext_128` (R10, R25). -/
def driveR {n : Nat} (v : BitVec n) : Port := v.setWidth 128

/-- `ones(n)`, the field of `n` one bits (R10). -/
def ones (n : Nat) : BitVec n := BitVec.allOnes n

/-- `sext_64(v)`: copies of the top bit above a field, to 64 bits (R10, R103). -/
def sext64 {n : Nat} (v : BitVec n) : BitVec 64 := v.signExtend 64

/-- `sint_w` (R9). -/
def sint {w : Nat} (v : BitVec w) : Int := v.toInt

/-- `uint_w` (R9). -/
def uint {w : Nat} (v : BitVec w) : Int := v.toNat

/-- `enc_w(i)`, the `w`-bit field whose `uint_w` is `i mod 2^w` (R9). -/
def enc (w : Nat) (i : Int) : BitVec w := BitVec.ofInt w i

/-- Lane `i` of a container at width `w`, `v[i·w+w-1 : i·w]` (R122); byte `k` of a container is lane `k` at width 8
(R41). -/
def laneOf (w : Nat) (v : Port) (i : Nat) : BitVec w := v.extractLsb' (i * w) w

/-- The number of lanes of width `W` in a container of width `C`, `C / W` (R120). -/
def laneCount (w : LaneWidth) (c : ContainerWidth) : Nat := c.bits / w.bits

/-- The container holds lanes of this width, `W ≤ C` (R120). -/
def lanesFit (w : LaneWidth) (c : ContainerWidth) : Bool := decide (w.bits ≤ c.bits)

/-- The slots `LOUT` of a split: lane `i` zero-extended in slot `i` below the lane count, 0 above it (R123). -/
def splitSlots (w : LaneWidth) (c : ContainerWidth) (v : Port) : Slots :=
  Vector.ofFn fun i => if i.val < laneCount w c then (laneOf w.bits v i.val).setWidth 64 else 0#64

/-- `lane (k-1) ++ … ++ lane 1 ++ lane 0` (R124). -/
def concatLanes (w : Nat) (lane : Nat → BitVec w) : (k : Nat) → BitVec (w * k)
  | 0 => 0#(w * 0)
  | k + 1 => (lane k ++ concatLanes w lane k).setWidth (w * (k + 1))

/-- The container packed from the low `W` bits of slots `0 .. C/W-1` (R124). -/
def packSlots (w : LaneWidth) (c : ContainerWidth) (lin : Slots) : BitVec (w.bits * laneCount w c) :=
  concatLanes w.bits (fun i => slotBits w.bits (lin.getD i 0#64)) (laneCount w c)

/-- A saturating operand: the low `W` bits of a port, read signed or unsigned (R141). -/
def operand (g : Signedness) (w : LaneWidth) (v : Port) : Int :=
  match g with
  | .signed => sint (lowBits w.bits v)
  | .unsigned => uint (lowBits w.bits v)

/-- The 128-bit container of a Q register, `D(2q+1) ++ D(2q)` (R121). -/
def qContainer (dOdd dEven : BitVec 64) : Port := dOdd ++ dEven

end Sys2Proof.Machine
end

