-- ==== Sys2Proof/Machine/Flags.lean ====
section
/-! DEFINITION. Saturation and the flag it feeds: the ranges and clamping of spec/42_saturating.md R140, R142 to
R145, and the codes of the `FAULT` port (spec/60_exceptions.md R200). The NK computes no other flag (R28). -/

namespace Sys2Proof.Machine

/-- `min_W` (R140; the ranges are the spec's general knowledge: PRESUMED, unsafe, notes/assumptions/9.md). -/
def minValue (g : Signedness) (w : LaneWidth) : Int :=
  match g with
  | .signed => -(2 ^ (w.bits - 1))
  | .unsigned => 0

/-- `max_W` (R140). -/
def maxValue (g : Signedness) (w : LaneWidth) : Int :=
  match g with
  | .signed => 2 ^ (w.bits - 1) - 1
  | .unsigned => 2 ^ w.bits - 1

/-- `clamp(t, lo, hi)` on unbounded integers (R10). -/
def clamp (t lo hi : Int) : Int :=
  if t < lo then lo else if t > hi then hi else t

/-- The clamped result `c` of an exact result `t` (R142, R143). -/
def saturate (g : Signedness) (w : LaneWidth) (t : Int) : Int :=
  clamp t (minValue g w) (maxValue g w)

/-- `sat <- (c != t)` (R142, R143). -/
def satFlag (g : Signedness) (w : LaneWidth) (t : Int) : Bool :=
  decide (saturate g w t ≠ t)

/-- `QC' = QC OR SAT` (R145). -/
def stickyOr (qc sat : Bool) : Bool := qc || sat

/-- The code of a fault on the `FAULT` port (R200). -/
def FaultReport.code : FaultReport → BitVec 2
  | .reservedEncoding _ => 1
  | .invalidWidth _ _ => 2

/-- The `FAULT` port for an outcome: 0 where the command completed (R25, R200). -/
def CommandOutcome.faultCode : CommandOutcome → BitVec 2
  | .ok _ => 0
  | .fault f => f.code

/-- The command word a fault records (R200). -/
def FaultReport.cmd : FaultReport → Word
  | .reservedEncoding cmd => cmd
  | .invalidWidth cmd _ => cmd

end Sys2Proof.Machine
end

