-- ==== Sys2Proof/Machine/Ops.lean ====
section
/-! DEFINITION. The operations every meaning is written in: putting the host's next command on the ports,
delivering the outputs of a completed command (spec/10_state.md R25), and reporting a fault
(spec/60_exceptions.md R201, R205). -/

namespace Sys2Proof.Machine

/-! ## Field updates -/

/-- Write `QC`. -/
def State.withQC (b : Bool) (s : State) : State := { s with qc := b }

/-- Show an outcome on the output ports. -/
def State.withOut (o : CommandOutcome) (s : State) : State := { s with out := some o }

/-! ## Issuing -/

/-- The host drives the ports for its next command, if it issues one (R22, R23, R234). No earlier outcome is
valid any more (R24). -/
def nextCommand (s : State) : Option State :=
  match s.pending with
  | [] => none
  | p :: rest => some { s with ports := p, out := none, pending := rest }

/-- A step in which the host issues no command: the NK "is idle and holds `QC`" (R212, R234). DESIGN CHOICE,
safe (notes/assumptions/5.md): no output is valid in it. -/
def idle (s : State) : State := { s with out := none }

/-! ## Completing -/

/-- A command completes with a result on `R`; `SAT = 0`, `LOUT` all zero, `QC` unchanged (R25). -/
def complete (r : Port) (s : State) : Answer :=
  .next (s.withOut (.ok { r := r, lout := zeroSlots, sat := false }))

/-- A command completes with lanes on `LOUT`; `R = 0`, `SAT = 0`, `QC` unchanged (R123). -/
def completeLanes (lout : Slots) (s : State) : Answer :=
  .next (s.withOut (.ok { r := 0#128, lout := lout, sat := false }))

/-- A saturating command completes: the clamped result on `R`, `SAT`, and `QC <- QC OR SAT`
(R142, R143, R145). -/
def completeSaturating (g : Signedness) (w : LaneWidth) (t : Int) (s : State) : Answer :=
  let sat := satFlag g w t
  .next ((s.withQC (stickyOr s.qc sat)).withOut
    (.ok { r := driveR (enc w.bits (saturate g w t)), lout := zeroSlots, sat := sat }))

/-- A command completes by writing `QC`; `R = 0` (R191). -/
def completeWriteQC (b : Bool) (s : State) : Answer :=
  .next ((s.withQC b).withOut (.ok { r := 0#128, lout := zeroSlots, sat := false }))

/-! ## Faults -/

/-- A command faults. "A fault is reported on the `FAULT` port as the outcome of its command, and that is all":
no state is saved or changed, no output is delivered, there is no vector, and the next command executes
normally (R201, R205). There is no return from a fault to model, because "a fault is not a state the NK is
in" (R205). -/
def raise (f : FaultReport) (s : State) : Answer := .next (s.withOut (.fault f))

/-- `raise ReservedEncoding(CMD)` (R69, R200). -/
def raiseReserved (s : State) : Answer := raise (.reservedEncoding s.ports.cmd) s

/-- `raise InvalidWidth(n)`, with the command word, which is the value on `CMD` (R100 to R103, R200). DEDUCED, safe
(notes/assumptions/7.md). -/
def raiseInvalidCount (n : Nat) (s : State) : Answer := raise (.invalidWidth s.ports.cmd (.count n)) s

/-- `raise InvalidWidth(W, C)`, with the command word (R123, R124, R200). -/
def raiseInvalidLanes (w : LaneWidth) (c : ContainerWidth) (s : State) : Answer :=
  raise (.invalidWidth s.ports.cmd (.lanes w c)) s

end Sys2Proof.Machine
end

