-- ==== Sys2Proof/Machine/FloatBits.lean ====
section
/-! DEFINITION. The reinterpretation and default-NaN commands (spec/43_float_bits.md R165 to R171), and the
IEEE-754 reading of a pattern as a function on it (R160 to R164). A float on a port IS its bit pattern (R160),
so the four reinterpretation commands move bits and never change one (R169); the logarithm method of the
original software is not modelled anywhere (spec/00_scope.md R6). -/

namespace Sys2Proof.Machine

/-! ## Commands -/

/-- `bitsOfFloat32` (R165). -/
def execBitsOfFloat32 (s : State) : Answer := complete (driveR (lowBits 32 s.ports.a)) s

/-- `float32OfBits` (R166). -/
def execFloat32OfBits (s : State) : Answer := complete (driveR (lowBits 32 s.ports.a)) s

/-- `bitsOfDouble` (R167). -/
def execBitsOfDouble (s : State) : Answer := complete (driveR (lowBits 64 s.ports.a)) s

/-- `doubleOfBits` (R168). -/
def execDoubleOfBits (s : State) : Answer := complete (driveR (lowBits 64 s.ports.a)) s

/-- `defaultNaN32` (R170). -/
def execDefaultNaN32 (s : State) : Answer := complete (driveR Config.defaultNaN32) s

/-- `defaultNaN64` (R171). -/
def execDefaultNaN64 (s : State) : Answer := complete (driveR Config.defaultNaN64) s

/-! ## Readings

The layouts and the tables are the spec's own general knowledge, as it marks them: PRESUMED, unsafe
(notes/assumptions/9.md). No command depends on them. -/

/-- The widths of an IEEE-754 interchange format's exponent and fraction fields. -/
structure FloatFormat where
  expBits : Nat
  fracBits : Nat
deriving DecidableEq, Repr

/-- binary32: exponent `b[30:23]`, fraction `b[22:0]` (R161). -/
def binary32 : FloatFormat := { expBits := 8, fracBits := 23 }

/-- binary64: exponent `b[62:52]`, fraction `b[51:0]` (R163). -/
def binary64 : FloatFormat := { expBits := 11, fracBits := 52 }

/-- The class of a pattern, with its sign (true: `s = 1`) and the numbers its class has (R162, R164). -/
inductive FloatReading where
  | zero (neg : Bool)
  | subnormal (neg : Bool) (f : Nat)
  | normal (neg : Bool) (e f : Nat)
  | infinity (neg : Bool)
  | quietNaN (neg : Bool) (payload : Nat)
  | signallingNaN (neg : Bool) (payload : Nat)
deriving DecidableEq, Repr

/-- The rows of the tables of R162 and R164 for a sign, a biased exponent and a fraction. The quiet bit is the
top bit of the fraction, and the payload is the bits below it. -/
def readFields (fmt : FloatFormat) (neg : Bool) (e f : Nat) : FloatReading :=
  if e = 0 then
    if f = 0 then .zero neg else .subnormal neg f
  else if e < 2 ^ fmt.expBits - 1 then .normal neg e f
  else if f = 0 then .infinity neg
  else if f.testBit (fmt.fracBits - 1) then .quietNaN neg (f % 2 ^ (fmt.fracBits - 1))
  else .signallingNaN neg (f % 2 ^ (fmt.fracBits - 1))

/-- The reading of a binary32 pattern (R161, R162). -/
def readBinary32 (b : BitVec 32) : FloatReading :=
  readFields binary32 (b.getLsbD 31) (b.extractLsb' 23 8).toNat (b.extractLsb' 0 23).toNat

/-- The reading of a binary64 pattern (R163, R164). -/
def readBinary64 (b : BitVec 64) : FloatReading :=
  readFields binary64 (b.getLsbD 63) (b.extractLsb' 52 11).toNat (b.extractLsb' 0 52).toNat

/-- `(−1)^s × m`. -/
def signedBy (neg : Bool) (m : Int) : Int := if neg then -m else m

/-- The value of a finite class as `m × 2^k`, the pair `(m, k)`: `(−1)^s × f × 2^−149` for a binary32
subnormal, `(−1)^s × (2^23 + f) × 2^(e−150)` for a binary32 normal, and the like for binary64 with −1074 and
`e − 1075`; infinities and NaNs have none (R162, R164). The sign of a zero is in its class, not in this value. -/
def finiteValue (fmt : FloatFormat) : FloatReading → Option (Int × Int)
  | .zero _ => some (0, 0)
  | .subnormal neg f => some (signedBy neg f, 2 - 2 ^ (fmt.expBits - 1) - fmt.fracBits)
  | .normal neg e f =>
    some (signedBy neg (2 ^ fmt.fracBits + f), e + 1 - 2 ^ (fmt.expBits - 1) - fmt.fracBits)
  | .infinity _ => none
  | .quietNaN _ _ => none
  | .signallingNaN _ _ => none

end Sys2Proof.Machine
end

