-- ==== Sys2Proof/Machine/Lanes.lean ====
section
/-! DEFINITION. The lane split and merge commands (spec/41_lanes.md R123, R124). -/

namespace Sys2Proof.Machine

/-- `splitLanes.<W> c<C>` (R123). -/
def execSplitLanes (w : LaneWidth) (c : ContainerWidth) (s : State) : Answer :=
  if lanesFit w c then completeLanes (splitSlots w c s.ports.a) s
  else raiseInvalidLanes w c s

/-- `packLanes.<W> c<C>` (R124). -/
def execPackLanes (w : LaneWidth) (c : ContainerWidth) (s : State) : Answer :=
  if lanesFit w c then complete (driveR (packSlots w c s.ports.lin)) s
  else raiseInvalidLanes w c s

end Sys2Proof.Machine
end

