-- ==== Sys2Proof/Machine/MaskExtend.lean ====
section
/-! DEFINITION. The mask and extension commands (spec/40_mask_extend.md R100 to R103). -/

namespace Sys2Proof.Machine

/-- `mask #n` (R100). -/
def execMask (n : Nat) (s : State) : Answer :=
  if n > Config.maskLimit then raiseInvalidCount n s
  else complete (driveR ((ones n).setWidth 32)) s

/-- `maskLong #n` (R101). -/
def execMaskLong (n : Nat) (s : State) : Answer :=
  if n > Config.maskLongLimit then raiseInvalidCount n s
  else complete (driveR ((ones n).setWidth 64)) s

/-- `zeroExtend #n`; at `n = 0` the field is empty and its value 0 (R102). -/
def execZeroExtend (n : Nat) (s : State) : Answer :=
  if n > Config.extendWidth then raiseInvalidCount n s
  else complete (driveR ((lowBits n s.ports.a).setWidth 64)) s

/-- `signExtend #n` (R103). -/
def execSignExtend (n : Nat) (s : State) : Answer :=
  if n = 0 ∨ n > Config.extendWidth then raiseInvalidCount n s
  else complete (driveR (sext64 (lowBits n s.ports.a))) s

end Sys2Proof.Machine
end

