-- ==== Sys2Proof/Machine/QcAccess.lean ====
section
/-! DEFINITION. The commands that read and write `QC` (spec/44_qc_access.md R190, R191). -/

namespace Sys2Proof.Machine

/-- `readQC`: `R <- zext_128(QC)` (R190). -/
def execReadQC (s : State) : Answer := complete (driveR (BitVec.ofBool s.qc)) s

/-- `writeQC`: `QC <- A[0]`, `R <- 0` (R191). -/
def execWriteQC (s : State) : Answer := completeWriteQC (s.ports.a.getLsbD 0) s

end Sys2Proof.Machine
end

