-- ==== Sys2Proof/Machine/Saturating.lean ====
section
/-! DEFINITION. The saturating add and subtract commands (spec/42_saturating.md R142, R143). The exact result is
computed on unbounded integers, so nothing wraps at any width (R141, R147). -/

namespace Sys2Proof.Machine

/-- `saturatingAdd.<s|u><W>` (R142). -/
def execSaturatingAdd (w : LaneWidth) (g : Signedness) (s : State) : Answer :=
  completeSaturating g w (operand g w s.ports.a + operand g w s.ports.b) s

/-- `saturatingSub.<s|u><W>`, minuend on `A`, subtrahend on `B` (R143). -/
def execSaturatingSub (w : LaneWidth) (g : Signedness) (s : State) : Answer :=
  completeSaturating g w (operand g w s.ports.a - operand g w s.ports.b) s

end Sys2Proof.Machine
end

