-- ==== Sys2Proof/Machine/Dispatch.lean ====
section
/-! DEFINITION. One arm per command (spec/30_encoding.md R62), each a direct call of its meaning. -/

namespace Sys2Proof.Machine

def exec (i : Instr) (s : State) : Host.Outcome State Fault Refusal :=
  match i with
  | .mask n => Sys2Proof.Machine.execMask n s
  | .maskLong n => Sys2Proof.Machine.execMaskLong n s
  | .zeroExtend n => Sys2Proof.Machine.execZeroExtend n s
  | .signExtend n => Sys2Proof.Machine.execSignExtend n s
  | .splitLanes w c => Sys2Proof.Machine.execSplitLanes w c s
  | .packLanes w c => Sys2Proof.Machine.execPackLanes w c s
  | .saturatingAdd w g => Sys2Proof.Machine.execSaturatingAdd w g s
  | .saturatingSub w g => Sys2Proof.Machine.execSaturatingSub w g s
  | .bitsOfFloat32 => Sys2Proof.Machine.execBitsOfFloat32 s
  | .float32OfBits => Sys2Proof.Machine.execFloat32OfBits s
  | .bitsOfDouble => Sys2Proof.Machine.execBitsOfDouble s
  | .doubleOfBits => Sys2Proof.Machine.execDoubleOfBits s
  | .defaultNaN32 => Sys2Proof.Machine.execDefaultNaN32 s
  | .defaultNaN64 => Sys2Proof.Machine.execDefaultNaN64 s
  | .readQC => Sys2Proof.Machine.execReadQC s
  | .writeQC => Sys2Proof.Machine.execWriteQC s

end Sys2Proof.Machine
end

