-- ==== Sys2Proof/Machine/Step.lean ====
section
/-! DEFINITION. One step: the host's next command, put on the ports, decoded and run as one atomic step
(spec/10_state.md R22; spec/20_memory.md R47). A word the decoder refuses raises `ReservedEncoding`
(spec/30_encoding.md R69), before anything the command itself could raise (spec/60_exceptions.md R204). -/

namespace Sys2Proof.Machine

def step (s : State) : Host.Outcome State Fault Refusal :=
  match nextCommand s with
  | none => .next (idle s)
  | some s' =>
    match decode s'.ports.cmd with
    | .ok i => exec i s'
    | .error _ => raiseReserved s'

/-- The state in which the next command the host issues is this word, with `A`, `B` and `LIN` as they stand on
the ports; the commands already waiting come after it. The NK fetches nothing (R42, R50): this stands for the
host issuing the word. DESIGN CHOICE, safe (notes/assumptions/6.md). -/
def State.withFetchWord (s : State) (nbits w : Nat) : State :=
  { s with pending := { s.ports with cmd := tableWord nbits w } :: s.pending }

end Sys2Proof.Machine
end

