-- ==== Sys2Proof/Machine/Assembly.lean ====
section
/-! DEFINITION. The NK's assembler syntax (spec/30_encoding.md R72) and its pseudo-instructions (R73). The data
operands are not written: they are the values the host drives on the ports (R72). What the syntax leaves open
(blanks around the parts of a line, leading zeros of a number, R8's underscore inside a `0x` number, blank lines) is
DESIGN CHOICE, safe: notes/assumptions/8.md. -/

namespace Sys2Proof.Machine

/-! ## Pseudo-instructions -/

/-- The widths `sext<w>` and `zext<w>` are written for: 8, 16, 32 (R73). -/
inductive ExtendWidth where
  | e8 | e16 | e32
deriving DecidableEq, Repr

/-- An extension width in bits (R73). -/
def ExtendWidth.bits : ExtendWidth → Nat
  | .e8 => 8
  | .e16 => 16
  | .e32 => 32

/-- The pseudo-instructions (R73). -/
inductive Pseudo where
  | clearQC
  | setQC
  | saturatingNeg (g : Signedness) (w : LaneWidth)
  | sext (w : ExtendWidth)
  | zext (w : ExtendWidth)
deriving DecidableEq, Repr

/-- The command a pseudo-instruction stands for (R73). -/
def Pseudo.expand : Pseudo → Instr
  | .clearQC => .writeQC
  | .setQC => .writeQC
  | .saturatingNeg g w => .saturatingSub w g
  | .sext w => .signExtend w.bits
  | .zext w => .zeroExtend w.bits

/-- A port with its low `n` bits replaced. -/
def setLowBits {n : Nat} (v : Port) (x : BitVec n) : Port :=
  ((v >>> n) <<< n) ||| x.setWidth 128

/-- The ports as the host drives them for a pseudo-instruction: its command's word on `CMD`, and the constraint
of R73 on the port values met by setting the constrained bits of `A`. -/
def Pseudo.drive (q : Pseudo) (p : Ports) : Ports :=
  let p := { p with cmd := encode q.expand }
  match q with
  | .clearQC => { p with a := setLowBits p.a 0#1 }
  | .setQC => { p with a := setLowBits p.a 1#1 }
  | .saturatingNeg _ w => { p with a := setLowBits p.a (0#w.bits) }
  | .sext _ => p
  | .zext _ => p

/-! ## Mnemonics -/

/-- The sixteen commands' mnemonics, as the opcode map spells them (R62). -/
def mnemonicText : Opcode → String
  | .mask => "mask"
  | .maskLong => "maskLong"
  | .zeroExtend => "zeroExtend"
  | .signExtend => "signExtend"
  | .splitLanes => "splitLanes"
  | .packLanes => "packLanes"
  | .saturatingAdd => "saturatingAdd"
  | .saturatingSub => "saturatingSub"
  | .bitsOfFloat32 => "bitsOfFloat32"
  | .float32OfBits => "float32OfBits"
  | .bitsOfDouble => "bitsOfDouble"
  | .doubleOfBits => "doubleOfBits"
  | .defaultNaN32 => "defaultNaN32"
  | .defaultNaN64 => "defaultNaN64"
  | .readQC => "readQC"
  | .writeQC => "writeQC"

/-- The opcode map's rows in its order (R62). -/
def opcodeRows : List Opcode :=
  [.mask, .maskLong, .zeroExtend, .signExtend, .splitLanes, .packLanes, .saturatingAdd, .saturatingSub,
   .bitsOfFloat32, .float32OfBits, .bitsOfDouble, .doubleOfBits, .defaultNaN32, .defaultNaN64, .readQC, .writeQC]

/-- "case-insensitive" (R72): every letter as its lower-case form. -/
def lower (cs : List Char) : List Char := cs.map Char.toLower

/-- The operation of a mnemonic in lower case. -/
def opcodeNamed (name : List Char) : Option Opcode :=
  opcodeRows.find? fun op => lower (mnemonicText op).toList == name

/-! ## Reading a line -/

/-- A line cut at a character. -/
def splitAt (c : Char) : List Char → List (List Char)
  | [] => [[]]
  | d :: rest =>
    match splitAt c rest with
    | [] => [[d]]
    | part :: parts => if d == c then [] :: part :: parts else (d :: part) :: parts

/-- The parts of a line between blanks. -/
def tokens (line : List Char) : List (List Char) :=
  (splitAt ' ' line).filter fun t => !t.isEmpty

/-- The value of a digit in a base up to sixteen, letters in lower case. An underscore is no digit (see `number`). -/
def digitValue (base : Nat) (c : Char) : Option Nat :=
  let v := if '0' ≤ c ∧ c ≤ '9' then c.toNat - 48
    else if 'a' ≤ c ∧ c ≤ 'f' then c.toNat - 87 else 16
  if v < base then some v else none

/-- The number that digits denote, after the digits already read. -/
def digitsValue (base : Nat) : List Char → Nat → Option Nat
  | [], acc => some acc
  | c :: rest, acc => (digitValue base c).bind fun d => digitsValue base rest (acc * base + d)

/-- A number, "decimal or `0x` hexadecimal" (R72); at least one digit. R8 lets an underscore separate the digit groups
of a `0x` number in the spec's own text, and R72 does not say whether an operand may hold one: such a line is an
assembly error here. DESIGN CHOICE, safe (notes/assumptions/8.md). -/
def number : List Char → Option Nat
  | [] => none
  | '0' :: 'x' :: d :: ds => digitsValue 16 (d :: ds) 0
  | ds => digitsValue 10 ds 0

/-- The operand `#n`, "from 0 to 127; a larger number is an assembly error" (R72). -/
def countOperand : List Char → Option Nat
  | '#' :: ds => (number ds).bind fun n => if n ≤ 127 then some n else none
  | _ => none

/-- The width `<w>` of a suffix: 8, 16, 32 or 64 (R72). -/
def laneWidthNamed (t : List Char) : Option LaneWidth :=
  if t = "8".toList then some .w8
  else if t = "16".toList then some .w16
  else if t = "32".toList then some .w32
  else if t = "64".toList then some .w64
  else none

/-- The operand `c<c>`: c32, c64 or c128 (R72). -/
def containerNamed (t : List Char) : Option ContainerWidth :=
  if t = "c32".toList then some .c32
  else if t = "c64".toList then some .c64
  else if t = "c128".toList then some .c128
  else none

/-- The suffix `<t><w>`: `s` or `u`, then a width (R72). -/
def signedWidthNamed : List Char → Option (Signedness × LaneWidth)
  | 's' :: t => (laneWidthNamed t).map (Signedness.signed, ·)
  | 'u' :: t => (laneWidthNamed t).map (Signedness.unsigned, ·)
  | _ => none

/-- A command line's operation applied to its suffix (the parts after a full stop) and its operands, by the
grammar of R72. -/
def commandLine (op : Opcode) (suffix operands : List (List Char)) : Option Instr :=
  match op, suffix, operands with
  | .mask, [], [t] => (countOperand t).map .mask
  | .maskLong, [], [t] => (countOperand t).map .maskLong
  | .zeroExtend, [], [t] => (countOperand t).map .zeroExtend
  | .signExtend, [], [t] => (countOperand t).map .signExtend
  | .splitLanes, [w], [c] =>
    (laneWidthNamed w).bind fun w => (containerNamed c).map fun c => .splitLanes w c
  | .packLanes, [w], [c] =>
    (laneWidthNamed w).bind fun w => (containerNamed c).map fun c => .packLanes w c
  | .saturatingAdd, [t], [] => (signedWidthNamed t).map fun (g, w) => .saturatingAdd w g
  | .saturatingSub, [t], [] => (signedWidthNamed t).map fun (g, w) => .saturatingSub w g
  | .bitsOfFloat32, [], [] => some .bitsOfFloat32
  | .float32OfBits, [], [] => some .float32OfBits
  | .bitsOfDouble, [], [] => some .bitsOfDouble
  | .doubleOfBits, [], [] => some .doubleOfBits
  | .defaultNaN32, [], [] => some .defaultNaN32
  | .defaultNaN64, [], [] => some .defaultNaN64
  | .readQC, [], [] => some .readQC
  | .writeQC, [], [] => some .writeQC
  | _, _, _ => none

/-- A line's parts: the mnemonic, the suffix parts, the operands, in lower case. -/
def lineParts (line : List Char) : Option (List Char × List (List Char) × List (List Char)) :=
  match tokens (lower line) with
  | [] => none
  | head :: operands =>
    match splitAt '.' head with
    | [] => none
    | name :: suffix => some (name, suffix, operands)

/-- Assemble one line that names a command (R72). -/
def assemble (line : List Char) : Option Instr :=
  (lineParts line).bind fun (name, suffix, operands) =>
    (opcodeNamed name).bind fun op => commandLine op suffix operands

/-- Read one line that names a pseudo-instruction (R73). -/
def assemblePseudo (line : List Char) : Option Pseudo :=
  match lineParts line with
  | some (name, [], []) =>
    if name = "clearqc".toList then some .clearQC
    else if name = "setqc".toList then some .setQC
    else if name = "sext8".toList then some (.sext .e8)
    else if name = "sext16".toList then some (.sext .e16)
    else if name = "sext32".toList then some (.sext .e32)
    else if name = "zext8".toList then some (.zext .e8)
    else if name = "zext16".toList then some (.zext .e16)
    else if name = "zext32".toList then some (.zext .e32)
    else none
  | some (name, [t], []) =>
    if name = "saturatingneg".toList then
      (signedWidthNamed t).map fun (g, w) => .saturatingNeg g w
    else none
  | _ => none

/-- The word of one line of a listing, a command's or a pseudo-instruction's (R72, R73). -/
def lineWord (line : List Char) : Option Word :=
  match assemble line with
  | some i => some (encode i)
  | none => (assemblePseudo line).map fun q => encode q.expand

/-- The words of lines, if each line has one. -/
def lineWords : List (List Char) → Option (List Word)
  | [] => some []
  | line :: rest => (lineWord line).bind fun w => (lineWords rest).map (w :: ·)

/-- Assemble a listing, "one command per line" (R72); blank lines are skipped. -/
def assembleListing (text : List Char) : Option (List Word) :=
  lineWords ((splitAt (Char.ofNat 10) text).filter fun line => !(tokens line).isEmpty)

/-! ## Writing a line -/

/-- A width as the syntax writes it. -/
def laneWidthText : LaneWidth → String
  | .w8 => "8"
  | .w16 => "16"
  | .w32 => "32"
  | .w64 => "64"

/-- A container as the syntax writes it. -/
def containerText : ContainerWidth → String
  | .c32 => "c32"
  | .c64 => "c64"
  | .c128 => "c128"

/-- The letter `<t>` of a signedness (R72). -/
def signednessText : Signedness → String
  | .signed => "s"
  | .unsigned => "u"

/-- A number in decimal. -/
def decimal (n : Nat) : List Char := Nat.toDigits 10 n

/-- The line of a command, in the form of the table of R72. -/
def assemblyText : Instr → List Char
  | .mask n => "mask #".toList ++ decimal n
  | .maskLong n => "maskLong #".toList ++ decimal n
  | .zeroExtend n => "zeroExtend #".toList ++ decimal n
  | .signExtend n => "signExtend #".toList ++ decimal n
  | .splitLanes w c => "splitLanes.".toList ++ (laneWidthText w).toList ++ " ".toList ++ (containerText c).toList
  | .packLanes w c => "packLanes.".toList ++ (laneWidthText w).toList ++ " ".toList ++ (containerText c).toList
  | .saturatingAdd w g => "saturatingAdd.".toList ++ (signednessText g).toList ++ (laneWidthText w).toList
  | .saturatingSub w g => "saturatingSub.".toList ++ (signednessText g).toList ++ (laneWidthText w).toList
  | .bitsOfFloat32 => "bitsOfFloat32".toList
  | .float32OfBits => "float32OfBits".toList
  | .bitsOfDouble => "bitsOfDouble".toList
  | .doubleOfBits => "doubleOfBits".toList
  | .defaultNaN32 => "defaultNaN32".toList
  | .defaultNaN64 => "defaultNaN64".toList
  | .readQC => "readQC".toList
  | .writeQC => "writeQC".toList

end Sys2Proof.Machine
end

