-- ==== Sys2Proof/Safety.lean ====
section
/-! DEFINITION. The terms claims about runs are stated in: a command as the function of spec/10_state.md R22, a
run and its observation (spec/70_reset_and_hazards.md R236), what each command reads and writes on its ports
(spec/20_memory.md R44), when a command refuses its widths (spec/60_exceptions.md R202), and what it means for
the ports of a state to conform to R25, R44 and R200. -/

namespace Sys2Proof.Machine

/-! ## Commands and runs -/

/-- One command as a function of `QC` and the input ports (R22): the new `QC` and the outcome. -/
def command (qc : Bool) (p : Ports) : Option (Bool × CommandOutcome) :=
  match step { qc := qc, ports := idlePorts, out := none, pending := [p] } with
  | .next t => t.out.map fun o => (t.qc, o)
  | .fault _ => none
  | .refused _ => none

/-- What is observed of a run: "the list of the commands' outcomes, in issue order, together with the final
`QC`" (R236). -/
structure Observation where
  outcomes : List CommandOutcome
  qc : Bool
deriving DecidableEq, Repr

/-- The observation of the run of a finite list of commands from a value of `QC` (R236). -/
def observe (qc : Bool) : List Ports → Observation
  | [] => { outcomes := [], qc := qc }
  | p :: rest =>
    match command qc p with
    | some (qc', o) => { outcomes := o :: (observe qc' rest).outcomes, qc := (observe qc' rest).qc }
    | none => { outcomes := [], qc := qc }

/-- `k` steps of the machine, the host's `core.run` written over `step` (Laws/Step.lean proves them equal). -/
def runSteps : Nat → State → Answer
  | 0, s => .next s
  | k + 1, s =>
    match step s with
    | .next t => runSteps k t
    | .fault r => .fault r
    | .refused r => .refused r

/-- A completed outcome that reports `SAT = 1`. -/
def CommandOutcome.saturated : CommandOutcome → Bool
  | .ok o => o.sat
  | .fault _ => false

/-! ## What a command reads and writes -/

/-- The width of the field of `R` a command writes: the column "writes" of R44. -/
def resultBits : Instr → Nat
  | .mask _ => 32
  | .maskLong _ => 64
  | .zeroExtend _ => 64
  | .signExtend _ => 64
  | .splitLanes _ _ => 0
  | .packLanes _ c => c.bits
  | .saturatingAdd w _ => w.bits
  | .saturatingSub w _ => w.bits
  | .bitsOfFloat32 => 32
  | .float32OfBits => 32
  | .bitsOfDouble => 64
  | .doubleOfBits => 64
  | .defaultNaN32 => 32
  | .defaultNaN64 => 64
  | .readQC => 1
  | .writeQC => 0

/-- Two sets of port values agree on the low `n` bits of a port. -/
def agreeBelow (n : Nat) (v v' : Port) : Prop := ∀ j, j < n → v.getLsbD j = v'.getLsbD j

/-- Two sets of port values agree on every bit the command reads: the column "reads" of R44, less `CMD` and
`QC`. -/
def readsAgree (p p' : Ports) : Instr → Prop
  | .mask _ => True
  | .maskLong _ => True
  | .zeroExtend _ => agreeBelow 64 p.a p'.a
  | .signExtend _ => agreeBelow 64 p.a p'.a
  | .splitLanes _ c => agreeBelow c.bits p.a p'.a
  | .packLanes w c => ∀ i, i < c.bits / w.bits → ∀ j, j < w.bits →
      (p.lin.getD i 0#64).getLsbD j = (p'.lin.getD i 0#64).getLsbD j
  | .saturatingAdd w _ => agreeBelow w.bits p.a p'.a ∧ agreeBelow w.bits p.b p'.b
  | .saturatingSub w _ => agreeBelow w.bits p.a p'.a ∧ agreeBelow w.bits p.b p'.b
  | .bitsOfFloat32 => agreeBelow 32 p.a p'.a
  | .float32OfBits => agreeBelow 32 p.a p'.a
  | .bitsOfDouble => agreeBelow 64 p.a p'.a
  | .doubleOfBits => agreeBelow 64 p.a p'.a
  | .defaultNaN32 => True
  | .defaultNaN64 => True
  | .readQC => True
  | .writeQC => agreeBelow 1 p.a p'.a

/-- The command refuses its bit count or widths: the column "`InvalidWidth` when" of R202. -/
def widthRefused : Instr → Bool
  | .mask n => decide (n > 32)
  | .maskLong n => decide (n > 64)
  | .zeroExtend n => decide (n > 64)
  | .signExtend n => decide (n = 0 ∨ n > 64)
  | .splitLanes w c => decide (w = .w64 ∧ c = .c32)
  | .packLanes w c => decide (w = .w64 ∧ c = .c32)
  | .saturatingAdd _ _ => false
  | .saturatingSub _ _ => false
  | .bitsOfFloat32 => false
  | .float32OfBits => false
  | .bitsOfDouble => false
  | .doubleOfBits => false
  | .defaultNaN32 => false
  | .defaultNaN64 => false
  | .readQC => false
  | .writeQC => false

/-- The offending values `InvalidWidth` records: `n`, or `W` and `C` (R200). -/
def offendingValues : Instr → Option WidthInfo
  | .mask n => some (.count n)
  | .maskLong n => some (.count n)
  | .zeroExtend n => some (.count n)
  | .signExtend n => some (.count n)
  | .splitLanes w c => some (.lanes w c)
  | .packLanes w c => some (.lanes w c)
  | .saturatingAdd _ _ => none
  | .saturatingSub _ _ => none
  | .bitsOfFloat32 => none
  | .float32OfBits => none
  | .bitsOfDouble => none
  | .doubleOfBits => none
  | .defaultNaN32 => none
  | .defaultNaN64 => none
  | .readQC => none
  | .writeQC => none

/-- A saturating command, the only kind that can drive `SAT = 1` (R25). -/
def saturates : Instr → Bool
  | .saturatingAdd _ _ => true
  | .saturatingSub _ _ => true
  | .mask _ => false
  | .maskLong _ => false
  | .zeroExtend _ => false
  | .signExtend _ => false
  | .splitLanes _ _ => false
  | .packLanes _ _ => false
  | .bitsOfFloat32 => false
  | .float32OfBits => false
  | .bitsOfDouble => false
  | .doubleOfBits => false
  | .defaultNaN32 => false
  | .defaultNaN64 => false
  | .readQC => false
  | .writeQC => false

/-! ## What a command delivers -/

/-- The command completes in one step of `exec` with these outputs and this `QC`, and nothing else of the state
changes. -/
def completesWith (i : Instr) (s : State) (qc : Bool) (o : Outputs) : Prop :=
  exec i s = .next { s with qc := qc, out := some (.ok o) }

/-- The command faults with this report, and nothing else of the state changes, `QC` included (R201). -/
def faultsWith (i : Instr) (s : State) (f : FaultReport) : Prop :=
  exec i s = .next { s with out := some (.fault f) }

/-- Outputs with a result on `R` and the values of R25 on the other ports. -/
def resultOnly (r : Port) : Outputs := { r := r, lout := zeroSlots, sat := false }

/-- The result a command delivers on `R`, if it completes. -/
def resultR (i : Instr) (s : State) : Option Port :=
  match exec i s with
  | .next t =>
    match t.out with
    | some (.ok o) => some o.r
    | _ => none
  | _ => none

/-- The lanes a command delivers on `LOUT`, if it completes. -/
def resultLanes (i : Instr) (s : State) : Option Slots :=
  match exec i s with
  | .next t =>
    match t.out with
    | some (.ok o) => some o.lout
    | _ => none
  | _ => none

/-- The host feeds a value back on `A` (R24). -/
def feedA (v : Port) (s : State) : State := { s with ports := { s.ports with a := v } }

/-- The host feeds lanes back on `LIN` (R24). -/
def feedLin (l : Slots) (s : State) : State := { s with ports := { s.ports with lin := l } }

/-! ## Numbers the rules write out -/

/-- The low `w` bits of a port as a number: `uint_w(v)`, or `sint_w(v) = uint_w(v) − 2^w·v[w−1]` (R9, R141). -/
def fieldValue (g : Signedness) (w : Nat) (v : Port) : Int :=
  let u : Int := (v.toNat % 2 ^ w : Nat)
  match g with
  | .unsigned => u
  | .signed => if v.getLsbD (w - 1) then u - 2 ^ w else u

/-- The column "signed min" and the unsigned 0 of the table of R140. -/
def lowest : Signedness → LaneWidth → Int
  | .unsigned, _ => 0
  | .signed, .w8 => -128
  | .signed, .w16 => -32768
  | .signed, .w32 => -2147483648
  | .signed, .w64 => -9223372036854775808

/-- The columns "signed max" and "unsigned max" of the table of R140. -/
def highest : Signedness → LaneWidth → Int
  | .unsigned, .w8 => 255
  | .unsigned, .w16 => 65535
  | .unsigned, .w32 => 4294967295
  | .unsigned, .w64 => 18446744073709551615
  | .signed, .w8 => 127
  | .signed, .w16 => 32767
  | .signed, .w32 => 2147483647
  | .signed, .w64 => 9223372036854775807

/-- The word number of a command, by the formulas of the table of R71. -/
def wordNumber : Instr → Nat
  | .mask n => 0x01 + n * 1024
  | .maskLong n => 0x02 + n * 1024
  | .zeroExtend n => 0x03 + n * 1024
  | .signExtend n => 0x04 + n * 1024
  | .splitLanes w c => 0x05 + w.code.toNat * 32 + c.code.toNat * 128
  | .packLanes w c => 0x06 + w.code.toNat * 32 + c.code.toNat * 128
  | .saturatingAdd w g => 0x07 + w.code.toNat * 32 + g.code.toNat * 512
  | .saturatingSub w g => 0x08 + w.code.toNat * 32 + g.code.toNat * 512
  | .bitsOfFloat32 => 0x09
  | .float32OfBits => 0x0A
  | .bitsOfDouble => 0x0B
  | .doubleOfBits => 0x0C
  | .defaultNaN32 => 0x0D
  | .defaultNaN64 => 0x0E
  | .readQC => 0x0F
  | .writeQC => 0x10

/-- The reserved words of R70, by the fields of R61 as numbers and the fields each command uses (R62). -/
def reservedNumber (w : Nat) : Prop :=
  let op := w % 32
  let lw := w / 32 % 4
  let cw := w / 128 % 4
  let s := w / 512 % 2
  let n := w / 1024 % 128
  let res := w / 131072
  op = 0 ∨ 0x11 ≤ op ∨ res ≠ 0 ∨
  (1 ≤ op ∧ op ≤ 4 ∧ (lw ≠ 0 ∨ cw ≠ 0 ∨ s ≠ 0)) ∨
  ((op = 5 ∨ op = 6) ∧ (s ≠ 0 ∨ n ≠ 0 ∨ cw = 3)) ∨
  ((op = 7 ∨ op = 8) ∧ (cw ≠ 0 ∨ n ≠ 0)) ∨
  (9 ≤ op ∧ (lw ≠ 0 ∨ cw ≠ 0 ∨ s ≠ 0 ∨ n ≠ 0))

/-! ## Conforming states -/

/-- The outputs of a completed command conform to R25 and R44: `R` is zero above the field the command writes,
only `splitLanes` drives `LOUT`, and only a saturating command drives `SAT = 1`, which leaves `QC = 1` (R145). -/
def outputsConform (qc : Bool) (i : Instr) (o : Outputs) : Prop :=
  widthRefused i = false ∧
  o.r.toNat < 2 ^ resultBits i ∧
  (o.lout ≠ zeroSlots → ∃ w c, i = .splitLanes w c) ∧
  (o.sat = true → saturates i = true ∧ qc = true)

/-- The outcome on the output ports belongs to the command on `CMD`: a reserved word shows `ReservedEncoding`
with that word, a command that refuses its widths shows `InvalidWidth` with the word and the offending values,
and any other command shows outputs that conform (R22, R25, R200, R202, R204). -/
def Conforms (s : State) : Prop :=
  match s.out with
  | none => True
  | some (.ok o) => ∃ i, decode s.ports.cmd = .ok i ∧ outputsConform s.qc i o
  | some (.fault (.reservedEncoding cmd)) => cmd = s.ports.cmd ∧ ∃ why, decode cmd = .error why
  | some (.fault (.invalidWidth cmd info)) =>
    cmd = s.ports.cmd ∧ ∃ i, decode cmd = .ok i ∧ widthRefused i = true ∧ offendingValues i = some info

end Sys2Proof.Machine
end

