-- ==== Sys2Proof/Certificates/Slice0/Obligations.lean ====
section
/-! DEFINITION. The statements about the NK, one per rule or group of rules of spec/.

Most rules of this spec carry `[decision: see 92_eei_decisions.md D<n>]`: the spec chose where its own source is
silent. Such a rule is the spec's rule here, and a statement may formalise it ("stated"). A statement that rests
on a passage the spec marks `[derived …]` or `[from general knowledge …]` has the basis "derived", and its
docstring names the passage. -/

open Sys2Proof Sys2Proof.Machine

/-! ## Encoding -/

/-- R71, R67: a well-formed command's word decodes to that command. -/
def Obligations.DecodeOfEncode : Prop :=
  ∀ i : Instr, i.wellFormed = true → decode (encode i) = .ok i

/-- R67, R71: a word that decodes is the word of its command, so no two words decode to one command. -/
def Obligations.EncodeOfDecode : Prop :=
  ∀ (cmd : Word) (i : Instr), decode cmd = .ok i → i.wellFormed = true ∧ encode i = cmd

/-- R70, R68: exactly the reserved words decode to no command, and each raises `ReservedEncoding` with the word
and changes nothing. -/
def Obligations.ReservedWordsExactly : Prop :=
  (∀ cmd : Word, (∃ why, decode cmd = .error why) ↔ reservedNumber cmd.toNat) ∧
  ∀ (s : State) (p : Ports) (rest : List Ports), s.pending = p :: rest → reservedNumber p.cmd.toNat →
    step s = .next { qc := s.qc, ports := p, out := some (.fault (.reservedEncoding p.cmd)), pending := rest }

/-- R71: every command's word is the number the table gives, the decoder reads the command back, and the command
executes or raises `InvalidWidth` as the table says. -/
def Obligations.EveryLegalWord : Prop :=
  ∀ i : Instr, i.wellFormed = true →
    (encode i).toNat = wordNumber i ∧ decode (encode i) = .ok i ∧
    ∀ s : State,
      (widthRefused i = false → ∃ qc o, completesWith i s qc o) ∧
      (widthRefused i = true →
        ∃ info, offendingValues i = some info ∧ faultsWith i s (.invalidWidth s.ports.cmd info))

/-- R72's example words, one word of each family written bit by bit (`RES` `N` `S` `CW` `LW` `OP`), and the
all-zero word. -/
def Obligations.WrittenOutWordsDecode : Prop :=
  decode 0x00000207#32 = .ok (.saturatingAdd .w8 .signed) ∧
  decode 0x000000A5#32 = .ok (.splitLanes .w16 .c64) ∧
  decode 0x00002004#32 = .ok (.signExtend 8) ∧
  decode 0b000000000000000_1000000_0_00_00_00010#32 = .ok (.maskLong 64) ∧
  decode 0b000000000000000_0000000_0_10_11_00110#32 = .ok (.packLanes .w64 .c128) ∧
  decode 0b000000000000000_0000000_1_00_10_01000#32 = .ok (.saturatingSub .w32 .signed) ∧
  decode 0b000000000000000_0000000_0_00_00_01100#32 = .ok .doubleOfBits ∧
  decode 0b000000000000000_0000000_0_00_00_10000#32 = .ok .writeQC ∧
  decode 0x00000000#32 = .error .opcode

/-- R63, R64, R65: the width each code of `LW` and `CW` selects and its code back, the code that is reserved, and the
two signednesses `S` selects. -/
def Obligations.FieldCodesSelectWidths : Prop :=
  (∀ lw : BitVec 2, (LaneWidth.ofCode lw).bits = 8 * 2 ^ lw.toNat ∧ (LaneWidth.ofCode lw).code = lw) ∧
  (∀ cw : BitVec 2, (cw = 3 ∧ ContainerWidth.ofCode cw = none) ∨
    ∃ c, ContainerWidth.ofCode cw = some c ∧ c.bits = 32 * 2 ^ cw.toNat ∧ c.code = cw ∧ cw ≠ 3) ∧
  Signedness.ofCode 0#1 = .unsigned ∧ Signedness.ofCode 1#1 = .signed

/-- R42: a stored word is its four bytes, least significant first, and a stored sequence reads back. -/
def Obligations.StoredWordsReadBack : Prop :=
  (∀ (cmd : Word) (k : Nat), k < 4 →
    (bytesOfWord cmd)[k]?.map BitVec.toNat = some (cmd.toNat / 256 ^ k % 256)) ∧
  ∀ cmds : List Word, wordsOfBytes (bytesOfWords cmds) = some cmds

/-! ## Assembler -/

/-- R72: the assembler reads the line of every well-formed command back as that command. -/
def Obligations.AssembleReadsWhatIsWritten : Prop :=
  ∀ i : Instr, i.wellFormed = true → assemble (assemblyText i) = some i

/-- R72: assembly is case-insensitive, for commands and for pseudo-instructions. -/
def Obligations.AssemblyIgnoresCase : Prop :=
  ∀ line : List Char, assemble (line.map Char.toUpper) = assemble line ∧
    assemblePseudo (line.map Char.toUpper) = assemblePseudo line

/-- R72: a decimal operand `#n` is `n` from 0 to 127, and a larger number is an assembly error. -/
def Obligations.DecimalCountOperand : Prop :=
  ∀ n : Nat, countOperand ('#' :: decimal n) = if n ≤ 127 then some n else none

/-- R72: "it can never produce a `ReservedEncoding` word". Every line that assembles gives a command whose word
decodes to it, and so does every pseudo-instruction. -/
def Obligations.AssemblerWritesNoReservedWord : Prop :=
  (∀ (line : List Char) (i : Instr), assemble line = some i → decode (encode i) = .ok i) ∧
  (∀ (line : List Char) (cmd : Word), lineWord line = some cmd → ∃ i, decode cmd = .ok i)

/-- R73: what a pseudo-instruction's command does on ports that meet its constraint. `saturatingNeg` subtracts
the value on `B` from 0. -/
def Obligations.PseudoInstructionsExpand : Prop :=
  ∀ (q : Pseudo) (s : State) (p : Ports) (rest : List Ports), s.pending = q.drive p :: rest →
    (q.drive p).b = p.b ∧ (q.drive p).lin = p.lin ∧
    step s = exec q.expand { qc := s.qc, ports := q.drive p, out := none, pending := rest } ∧
    match q with
    | .clearQC => q.expand = .writeQC ∧ (q.drive p).a.getLsbD 0 = false ∧ ∃ t, step s = .next t ∧ t.qc = false
    | .setQC => q.expand = .writeQC ∧ (q.drive p).a.getLsbD 0 = true ∧ ∃ t, step s = .next t ∧ t.qc = true
    | .saturatingNeg g w => q.expand = .saturatingSub w g ∧ fieldValue g w.bits (q.drive p).a = 0
    | .sext w => q.expand = .signExtend w.bits ∧ (q.drive p).a = p.a
    | .zext w => q.expand = .zeroExtend w.bits ∧ (q.drive p).a = p.a

/-! ## The step -/

/-- A step runs the decoded command: it puts the host's next command on the ports, and is `exec` of what the
word on `CMD` decodes to. -/
def Obligations.StepRunsDecodedCommand : Prop :=
  ∀ (s : State) (p : Ports) (rest : List Ports) (i : Instr),
    s.pending = p :: rest → decode p.cmd = .ok i →
    step s = exec i { qc := s.qc, ports := p, out := none, pending := rest }

/-- A step with no command waiting keeps `QC`, shows no outcome and changes nothing else (the model's choice,
log entry 5, after R212 and R234). -/
def Obligations.IdleStepHoldsQC : Prop :=
  ∀ s : State, s.pending = [] →
    step s = .next { qc := s.qc, ports := s.ports, out := none, pending := [] }

/-- R22: a command is one atomic step with exactly one of two outcomes; one that faults leaves the state
unchanged. No state and no input stops the machine. -/
def Obligations.EveryCommandHasAnOutcome : Prop :=
  ∀ (s : State) (p : Ports) (rest : List Ports), s.pending = p :: rest →
    ∃ qc o, step s = .next { qc := qc, ports := p, out := some o, pending := rest } ∧
      ((∃ x, o = .ok x) ∨ (∃ f, o = .fault f ∧ qc = s.qc))

/-- R20: a step is a function of `QC` and the input ports alone, and `QC` is all it leaves to the next. -/
def Obligations.StepIsFunctionOfQCAndPorts : Prop :=
  ∀ (s : State) (p : Ports) (rest : List Ports), s.pending = p :: rest →
    ∃ qc o, command s.qc p = some (qc, o) ∧
      step s = .next { qc := qc, ports := p, out := some o, pending := rest }

/-- R23: bits a command does not name cannot change its outcome, and nothing presented to one command is visible
to a later one. -/
def Obligations.UnnamedInputBitsIgnored : Prop :=
  (∀ (i : Instr) (s : State) (p p' : Ports), p.cmd = p'.cmd → readsAgree p p' i →
    ∃ qc o, exec i { s with ports := p } = .next { s with ports := p, qc := qc, out := some o } ∧
      exec i { s with ports := p' } = .next { s with ports := p', qc := qc, out := some o }) ∧
  ∀ (s t : State) (p : Ports) (rest : List Ports),
    s.qc = t.qc → s.pending = p :: rest → t.pending = p :: rest → step s = step t

/-- Issuing a command a second time with the same inputs, from the `QC` it left, gives the same outcome and leaves
the same `QC`. R44's last paragraph, which the spec marks `[derived …]`, says so of a command that does not change
`QC`, and where `QC` is already 1. For a saturating command or `writeQC` that takes `QC` to another value it follows
from R142 to R145 and R191: its outcome does not depend on `QC`, and `QC OR SAT`, or `A[0]`, written a second time
leaves `QC` as the first left it. -/
def Obligations.IssuingTwiceIsIssuingOnce : Prop :=
  ∀ (qc qc' : Bool) (p : Ports) (o : CommandOutcome),
    command qc p = some (qc', o) → command qc' p = some (qc', o)

/-- R236, R47: running the machine `k + 1` steps shows the outcome of the observed run at place `k`, leaves the
commands after it waiting, and holds the `QC` that the observed run of the first `k + 1` commands ends with. -/
def Obligations.RunShowsObservation : Prop :=
  ∀ (s : State) (k : Nat), k < s.pending.length →
    ∃ t, runSteps (k + 1) s = .next t ∧
      t.out = (observe s.qc s.pending).outcomes[k]? ∧ t.out.isSome = true ∧
      t.pending = s.pending.drop (k + 1) ∧ t.qc = (observe s.qc (s.pending.take (k + 1))).qc

/-- R47, R236: after the commands `ps`, the machine steps through the commands `qs` as it steps from any state `u`
that holds the `QC` which `ps` leave and has `qs` waiting, whatever else `u` holds: after `k + 1` more steps both show
the outcome of the run of `qs` at place `k`, and hold the same `QC` and the same commands waiting. Where `qs` is not
empty they are the same state; with no command waiting the input ports stand as each had them (log entry 5). -/
def Obligations.RunsComposeThroughQC : Prop :=
  ∀ (s u : State) (ps qs : List Ports),
    s.pending = ps ++ qs → u.pending = qs → u.qc = (observe s.qc ps).qc →
    ∀ k, ∃ t v, runSteps (ps.length + (k + 1)) s = .next t ∧ runSteps (k + 1) u = .next v ∧
      t.out = (observe u.qc qs).outcomes[k]? ∧ (k < qs.length → t.out.isSome = true) ∧
      v.out = t.out ∧ v.qc = t.qc ∧ v.pending = t.pending ∧ (qs ≠ [] → v = t)

/-- Every step leaves the ports conforming to R22, R25, R44, R200 and R202 for the command on `CMD`. -/
def Obligations.StepKeepsPortsConforming : Prop :=
  ∀ s t : State, Conforms s → step s = .next t → Conforms t

/-- The ports conform at reset: no output is valid (R231). -/
def Obligations.ResetPortsConform : Prop := Conforms State.reset

/-- R230, R231: after reset `QC` is 0, no output is valid and no command is in flight; and the first command the
host issues gives the first outcome. -/
def Obligations.ResetState : Prop :=
  State.reset.qc = false ∧ State.reset.out = none ∧ State.reset.pending = [] ∧
  ∀ p : Ports, ∃ qc o, step { State.reset with pending := [p] } =
    .next { qc := qc, ports := p, out := some o, pending := [] }

/-! ## Faults -/

/-- R200, R202, R204: which words and values give which code and which recorded information. Reserved words come
first, whatever their width. Code 3 is never driven, and no value on `A`, `B` or `LIN` decides a fault. -/
def Obligations.FaultsExactly : Prop :=
  ∀ (s : State) (p : Ports) (rest : List Ports), s.pending = p :: rest →
    ∃ t o, step s = .next t ∧ t.out = some o ∧ o.faultCode ≠ 3 ∧
      (o.faultCode = 1 ↔ reservedNumber p.cmd.toNat) ∧
      (o.faultCode = 2 ↔ ∃ i, decode p.cmd = .ok i ∧ widthRefused i = true) ∧
      (o.faultCode = 0 ↔ ∃ x, o = .ok x) ∧
      (o.faultCode = 1 → o = .fault (.reservedEncoding p.cmd)) ∧
      (o.faultCode = 2 → ∃ i info, decode p.cmd = .ok i ∧ offendingValues i = some info ∧
        o = .fault (.invalidWidth p.cmd info))

/-- R25, and the column "writes" of R44: what a completed command delivers on the ports its rule does not name.
-/
def Obligations.OutputConventions : Prop :=
  ∀ (i : Instr) (s : State) (qc : Bool) (o : Outputs), completesWith i s qc o →
    o.r.toNat < 2 ^ resultBits i ∧
    (saturates i = false → o.sat = false) ∧
    ((∀ w c, i ≠ .splitLanes w c) → o.lout = zeroSlots) ∧
    (CommandOutcome.ok o).faultCode = 0

/-- R201: a command that faults keeps `QC`, delivers no value, and leaves only its report. -/
def Obligations.FaultChangesNothing : Prop :=
  ∀ (s t : State) (p : Ports) (rest : List Ports) (f : FaultReport),
    s.pending = p :: rest → step s = .next t → t.out = some (.fault f) →
    t = { qc := s.qc, ports := p, out := some (.fault f), pending := rest }

/-- R205: a fault saves nothing, changes no `QC` and has no effect but its report, and the next command executes
as if the faulting one had not been issued; whatever the previous outcome was, the next command executes the
same from the same `QC`. -/
def Obligations.NextCommandExecutesNormally : Prop :=
  ∀ (s t : State) (p q : Ports) (rest : List Ports),
    s.pending = p :: q :: rest → step s = .next t →
    step t = step { s with qc := t.qc, pending := q :: rest } ∧
    ∀ f, t.out = some (.fault f) →
      t = { qc := s.qc, ports := p, out := some (.fault f), pending := q :: rest } ∧
      step t = step { s with pending := q :: rest }

/-! ## Mask and extension -/

/-- R100. -/
def Obligations.MaskCommand : Prop :=
  ∀ (n : Nat) (s : State),
    (n ≤ 127 → (encode (.mask n)).toNat = 1 + n * 1024) ∧
    (32 < n → faultsWith (.mask n) s (.invalidWidth s.ports.cmd (.count n))) ∧
    (n ≤ 32 → completesWith (.mask n) s s.qc (resultOnly (BitVec.ofNat 128 (2 ^ n - 1))))

/-- R101. -/
def Obligations.MaskLongCommand : Prop :=
  ∀ (n : Nat) (s : State),
    (n ≤ 127 → (encode (.maskLong n)).toNat = 2 + n * 1024) ∧
    (64 < n → faultsWith (.maskLong n) s (.invalidWidth s.ports.cmd (.count n))) ∧
    (n ≤ 64 → completesWith (.maskLong n) s s.qc (resultOnly (BitVec.ofNat 128 (2 ^ n - 1))))

/-- R102. -/
def Obligations.ZeroExtendCommand : Prop :=
  ∀ (n : Nat) (s : State),
    (n ≤ 127 → (encode (.zeroExtend n)).toNat = 3 + n * 1024) ∧
    (64 < n → faultsWith (.zeroExtend n) s (.invalidWidth s.ports.cmd (.count n))) ∧
    (n ≤ 64 → completesWith (.zeroExtend n) s s.qc (resultOnly (BitVec.ofNat 128 (s.ports.a.toNat % 2 ^ n))))

/-- R103, "bit by bit". -/
def Obligations.SignExtendCommand : Prop :=
  ∀ (n : Nat) (s : State),
    (n ≤ 127 → (encode (.signExtend n)).toNat = 4 + n * 1024) ∧
    (n = 0 ∨ 64 < n → faultsWith (.signExtend n) s (.invalidWidth s.ports.cmd (.count n))) ∧
    (1 ≤ n → n ≤ 64 → ∃ r, completesWith (.signExtend n) s s.qc (resultOnly r) ∧
      ∀ j, r.getLsbD j =
        if j < n then s.ports.a.getLsbD j
        else if j ≤ 63 then s.ports.a.getLsbD (n - 1) else false)

/-- R104, whose last three laws the spec marks `[derived …]`: the laws of the extension commands, with the host
feeding `R` back to `A`. The signed reading (R9) is general knowledge (log entry 9). -/
def Obligations.ExtensionLaws : Prop :=
  ∀ (n : Nat) (s : State), 1 ≤ n → n ≤ 64 →
    ∃ se ze, resultR (.signExtend n) s = some se ∧ resultR (.zeroExtend n) s = some ze ∧
      resultR (.signExtend n) (feedA se s) = some se ∧
      resultR (.zeroExtend n) (feedA se s) = some ze ∧
      resultR (.signExtend n) (feedA ze s) = some se ∧
      fieldValue .signed 64 se = fieldValue .signed n s.ports.a ∧
      fieldValue .unsigned 64 ze = fieldValue .unsigned n s.ports.a

/-! ## Lanes -/

/-- R123. -/
def Obligations.SplitLanesCommand : Prop :=
  ∀ (w : LaneWidth) (c : ContainerWidth) (s : State),
    (encode (.splitLanes w c)).toNat = 5 + w.code.toNat * 32 + c.code.toNat * 128 ∧
    (c.bits < w.bits → faultsWith (.splitLanes w c) s (.invalidWidth s.ports.cmd (.lanes w c))) ∧
    (w.bits ≤ c.bits → ∃ lout : Slots,
      completesWith (.splitLanes w c) s s.qc { r := 0#128, lout := lout, sat := false } ∧
      ∀ i j, (lout.getD i 0#64).getLsbD j =
        (decide (i < c.bits / w.bits) && decide (j < w.bits) && s.ports.a.getLsbD (i * w.bits + j)))

/-- R124. -/
def Obligations.PackLanesCommand : Prop :=
  ∀ (w : LaneWidth) (c : ContainerWidth) (s : State),
    (encode (.packLanes w c)).toNat = 6 + w.code.toNat * 32 + c.code.toNat * 128 ∧
    (c.bits < w.bits → faultsWith (.packLanes w c) s (.invalidWidth s.ports.cmd (.lanes w c))) ∧
    (w.bits ≤ c.bits → ∃ r, completesWith (.packLanes w c) s s.qc (resultOnly r) ∧
      ∀ j, r.getLsbD j =
        (decide (j < c.bits) && (s.ports.lin.getD (j / w.bits) 0#64).getLsbD (j % w.bits)))

/-- R125, whose converse the spec marks `[derived: from rules R123 and R124]`: packing what was split gives the
container back, splitting what was packed gives the truncated lanes back, and width 64 in a 32-bit container
faults both ways. -/
def Obligations.SplitAndPackRoundTrip : Prop :=
  ∀ (w : LaneWidth) (c : ContainerWidth) (s : State),
    (w.bits ≤ c.bits →
      (∃ l r, resultLanes (.splitLanes w c) s = some l ∧ resultR (.packLanes w c) (feedLin l s) = some r ∧
        ∀ j, j < c.bits → r.getLsbD j = s.ports.a.getLsbD j) ∧
      (∃ r l, resultR (.packLanes w c) s = some r ∧ resultLanes (.splitLanes w c) (feedA r s) = some l ∧
        ∀ i, i < c.bits / w.bits →
          l.getD i 0#64 = BitVec.ofNat 64 ((s.ports.lin.getD i 0#64).toNat % 2 ^ w.bits))) ∧
    (c.bits < w.bits →
      resultLanes (.splitLanes w c) s = none ∧ resultR (.packLanes w c) s = none)

/-- R126, which the spec marks `[derived: from rules R121, R123 and R124]`: the D registers of a Q container,
with the container of R121. -/
def Obligations.QAndDAlias : Prop :=
  ∀ (dOdd dEven : BitVec 64) (s : State),
    (s.ports.a = qContainer dOdd dEven → ∃ l, resultLanes (.splitLanes .w64 .c128) s = some l ∧
      l.getD 0 0#64 = dEven ∧ l.getD 1 0#64 = dOdd) ∧
    (s.ports.lin.getD 0 0#64 = dEven → s.ports.lin.getD 1 0#64 = dOdd →
      resultR (.packLanes .w64 .c128) s = some (qContainer dOdd dEven)) ∧
    (qContainer dOdd dEven).toNat = dOdd.toNat * 2 ^ 64 + dEven.toNat

/-- R41, whose last two sentences the spec marks `[derived: from 41_lanes.md rule R122]`: the lanes of width 8 are
the bytes of the container, least significant first, and a lane at twice a width is the two lanes at that width, the
odd one above the even one. -/
def Obligations.BytesAndMixedWidthLanes : Prop :=
  (∀ (c : ContainerWidth) (s : State), ∃ l, resultLanes (.splitLanes .w8 c) s = some l ∧
    ∀ k, k < c.bits / 8 → (l.getD k 0#64).toNat = s.ports.a.toNat / 256 ^ k % 256) ∧
  ∀ (w w' : LaneWidth) (c : ContainerWidth) (s : State), w'.bits = 2 * w.bits → w'.bits ≤ c.bits →
    ∃ l l', resultLanes (.splitLanes w c) s = some l ∧ resultLanes (.splitLanes w' c) s = some l' ∧
      ∀ j, j < c.bits / w'.bits →
        (l'.getD j 0#64).toNat =
          (l.getD (2 * j + 1) 0#64).toNat * 2 ^ w.bits + (l.getD (2 * j) 0#64).toNat

/-! ## Saturation -/

/-- R142: the exact sum, clamped; `SAT`; `QC OR SAT`; nothing of `R` above the width. The bounds of the clamp (R140)
and the signed reading (R9) are what the spec marks `[from general knowledge,
not in source]` (log entry 9, PRESUMED). -/
def Obligations.SaturatingAddCommand : Prop :=
  ∀ (w : LaneWidth) (g : Signedness) (s : State),
    (encode (.saturatingAdd w g)).toNat = 7 + w.code.toNat * 32 + g.code.toNat * 512 ∧
    ∃ r sat, completesWith (.saturatingAdd w g) s (s.qc || sat) { r := r, lout := zeroSlots, sat := sat } ∧
      r.toNat < 2 ^ w.bits ∧
      (let t := fieldValue g w.bits s.ports.a + fieldValue g w.bits s.ports.b
       fieldValue g w.bits r =
         (if t < lowest g w then lowest g w else if highest g w < t then highest g w else t) ∧
       (sat = true ↔ fieldValue g w.bits r ≠ t))

/-- R143: the exact difference `A − B`, clamped; `SAT`; `QC OR SAT`; nothing of `R` above the width. The bounds of the
clamp (R140) and the signed reading (R9) are what the spec marks `[from general knowledge, not in source]` (log entry
9, PRESUMED). -/
def Obligations.SaturatingSubCommand : Prop :=
  ∀ (w : LaneWidth) (g : Signedness) (s : State),
    (encode (.saturatingSub w g)).toNat = 8 + w.code.toNat * 32 + g.code.toNat * 512 ∧
    ∃ r sat, completesWith (.saturatingSub w g) s (s.qc || sat) { r := r, lout := zeroSlots, sat := sat } ∧
      r.toNat < 2 ^ w.bits ∧
      (let t := fieldValue g w.bits s.ports.a - fieldValue g w.bits s.ports.b
       fieldValue g w.bits r =
         (if t < lowest g w then lowest g w else if highest g w < t then highest g w else t) ∧
       (sat = true ↔ fieldValue g w.bits r ≠ t))

/-- R144: `SAT` is 1 exactly when the exact result of the command lies outside the range. The range (R140) and the
signed reading (R9) are what the spec marks `[from general knowledge, not in source]` (log entry 9, PRESUMED). -/
def Obligations.SaturationFlagExactly : Prop :=
  ∀ (w : LaneWidth) (g : Signedness) (s : State) (i : Instr) (t : Int),
    (i = .saturatingAdd w g ∧ t = fieldValue g w.bits s.ports.a + fieldValue g w.bits s.ports.b) ∨
    (i = .saturatingSub w g ∧ t = fieldValue g w.bits s.ports.a - fieldValue g w.bits s.ports.b) →
    ∃ qc o, completesWith i s qc o ∧ (o.sat = true ↔ t < lowest g w ∨ highest g w < t)

/-- R146, which the spec marks `[derived: from rules R140 to R144]`: the result lies in the range, and is the
exact one when `SAT` is 0. The range (R140) and the signed reading (R9) are general knowledge (log entry 9). -/
def Obligations.SaturatedResultIsBounded : Prop :=
  ∀ (w : LaneWidth) (g : Signedness) (s : State) (i : Instr) (t : Int),
    (i = .saturatingAdd w g ∧ t = fieldValue g w.bits s.ports.a + fieldValue g w.bits s.ports.b) ∨
    (i = .saturatingSub w g ∧ t = fieldValue g w.bits s.ports.a - fieldValue g w.bits s.ports.b) →
    ∃ qc o, completesWith i s qc o ∧
      lowest g w ≤ fieldValue g w.bits o.r ∧ fieldValue g w.bits o.r ≤ highest g w ∧
      (o.sat = false → fieldValue g w.bits o.r = t)

/-- R147, which the spec marks `[derived: from rules R140 to R143]`: the four exact-boundary cases, at every
width. The range (R140) and the signed reading (R9) are general knowledge (log entry 9). -/
def Obligations.ExactBoundaryCases : Prop :=
  ∀ (w : LaneWidth) (s : State),
    let x := fieldValue .signed w.bits s.ports.a
    let y := fieldValue .signed w.bits s.ports.b
    (x = 0 → y = lowest .signed w → ∃ r,
      completesWith (.saturatingSub w .signed) s true { r := r, lout := zeroSlots, sat := true } ∧
      fieldValue .signed w.bits r = highest .signed w) ∧
    (x = -1 → y = lowest .signed w → ∃ r,
      completesWith (.saturatingSub w .signed) s s.qc { r := r, lout := zeroSlots, sat := false } ∧
      fieldValue .signed w.bits r = highest .signed w) ∧
    (x = lowest .signed w → y = lowest .signed w → ∃ r,
      completesWith (.saturatingAdd w .signed) s true { r := r, lout := zeroSlots, sat := true } ∧
      fieldValue .signed w.bits r = lowest .signed w) ∧
    (fieldValue .unsigned w.bits s.ports.a = highest .unsigned w →
      fieldValue .unsigned w.bits s.ports.b = highest .unsigned w → ∃ r,
      completesWith (.saturatingAdd w .unsigned) s true { r := r, lout := zeroSlots, sat := true } ∧
      fieldValue .unsigned w.bits r = highest .unsigned w)

/-! ## Floating-point bits -/

/-- R165, R166: the 32-bit reinterpretations pass every pattern of `A[31:0]` unchanged. -/
def Obligations.Float32Reinterpretation : Prop :=
  encode .bitsOfFloat32 = 0x00000009#32 ∧ encode .float32OfBits = 0x0000000A#32 ∧
  ∀ s : State, ∃ r, completesWith .bitsOfFloat32 s s.qc (resultOnly r) ∧
    completesWith .float32OfBits s s.qc (resultOnly r) ∧
    (∀ j, r.getLsbD j = (decide (j < 32) && s.ports.a.getLsbD j)) ∧
    readBinary32 (r.setWidth 32) = readBinary32 (s.ports.a.setWidth 32)

/-- R167, R168: the 64-bit reinterpretations pass every pattern of `A[63:0]` unchanged. -/
def Obligations.DoubleReinterpretation : Prop :=
  encode .bitsOfDouble = 0x0000000B#32 ∧ encode .doubleOfBits = 0x0000000C#32 ∧
  ∀ s : State, ∃ r, completesWith .bitsOfDouble s s.qc (resultOnly r) ∧
    completesWith .doubleOfBits s s.qc (resultOnly r) ∧
    (∀ j, r.getLsbD j = (decide (j < 64) && s.ports.a.getLsbD j)) ∧
    readBinary64 (r.setWidth 64) = readBinary64 (s.ports.a.setWidth 64)

/-- R169: each reinterpretation undoes the other on every pattern, bit for bit. -/
def Obligations.ReinterpretationIsExact : Prop :=
  ∀ s : State,
    (∀ b : BitVec 32, s.ports.a = b.setWidth 128 →
      ∃ v, resultR .float32OfBits s = some v ∧ resultR .bitsOfFloat32 (feedA v s) = some (b.setWidth 128)) ∧
    (∀ v : BitVec 32, s.ports.a = v.setWidth 128 →
      ∃ b, resultR .bitsOfFloat32 s = some b ∧ resultR .float32OfBits (feedA b s) = some (v.setWidth 128)) ∧
    (∀ b : BitVec 64, s.ports.a = b.setWidth 128 →
      ∃ v, resultR .doubleOfBits s = some v ∧ resultR .bitsOfDouble (feedA v s) = some (b.setWidth 128)) ∧
    (∀ v : BitVec 64, s.ports.a = v.setWidth 128 →
      ∃ b, resultR .bitsOfDouble s = some b ∧ resultR .doubleOfBits (feedA b s) = some (v.setWidth 128))

/-- R161, R162, which the spec marks `[from general knowledge, not in source]` (log entry 9): the binary32 reading of a
pattern, row by row, with the values of the finite rows as `m × 2^k`. -/
def Obligations.Binary32ReadingTable : Prop :=
  ∀ b : BitVec 32,
    let neg := b.getLsbD 31
    let e := b.toNat / 2 ^ 23 % 256
    let f := b.toNat % 2 ^ 23
    (e = 0 → f = 0 → readBinary32 b = .zero neg ∧ finiteValue binary32 (readBinary32 b) = some (0, 0)) ∧
    (e = 0 → f ≠ 0 → readBinary32 b = .subnormal neg f ∧
      finiteValue binary32 (readBinary32 b) = some ((if neg then -1 else 1) * (f : Int), -149)) ∧
    (1 ≤ e → e ≤ 254 → readBinary32 b = .normal neg e f ∧
      finiteValue binary32 (readBinary32 b) =
        some ((if neg then -1 else 1) * (2 ^ 23 + (f : Int)), (e : Int) - 150)) ∧
    (e = 255 → f = 0 → readBinary32 b = .infinity neg) ∧
    (e = 255 → f ≠ 0 → b.getLsbD 22 = true → readBinary32 b = .quietNaN neg (b.toNat % 2 ^ 22)) ∧
    (e = 255 → f ≠ 0 → b.getLsbD 22 = false →
      readBinary32 b = .signallingNaN neg (b.toNat % 2 ^ 22) ∧ b.toNat % 2 ^ 22 ≠ 0)

/-- R163, R164, which the spec marks `[from general knowledge, not in source]` (log entry 9): the binary64 reading of a
pattern, row by row, with the values of the finite rows as `m × 2^k`. -/
def Obligations.Binary64ReadingTable : Prop :=
  ∀ b : BitVec 64,
    let neg := b.getLsbD 63
    let e := b.toNat / 2 ^ 52 % 2048
    let f := b.toNat % 2 ^ 52
    (e = 0 → f = 0 → readBinary64 b = .zero neg ∧ finiteValue binary64 (readBinary64 b) = some (0, 0)) ∧
    (e = 0 → f ≠ 0 → readBinary64 b = .subnormal neg f ∧
      finiteValue binary64 (readBinary64 b) = some ((if neg then -1 else 1) * (f : Int), -1074)) ∧
    (1 ≤ e → e ≤ 2046 → readBinary64 b = .normal neg e f ∧
      finiteValue binary64 (readBinary64 b) =
        some ((if neg then -1 else 1) * (2 ^ 52 + (f : Int)), (e : Int) - 1075)) ∧
    (e = 2047 → f = 0 → readBinary64 b = .infinity neg) ∧
    (e = 2047 → f ≠ 0 → b.getLsbD 51 = true → readBinary64 b = .quietNaN neg (b.toNat % 2 ^ 51)) ∧
    (e = 2047 → f ≠ 0 → b.getLsbD 51 = false →
      readBinary64 b = .signallingNaN neg (b.toNat % 2 ^ 51) ∧ b.toNat % 2 ^ 51 ≠ 0)

/-- R162, R164 (marked `[from general knowledge, not in source]`, log entry 9): the reading loses no bit, so two patterns
that read the same are the same. -/
def Obligations.ReadingsDetermineThePattern : Prop :=
  (∀ b b' : BitVec 32, readBinary32 b = readBinary32 b' → b = b') ∧
  (∀ b b' : BitVec 64, readBinary64 b = readBinary64 b' → b = b')

/-- R170, R171: the default NaNs, positive quiet NaNs with zero payload. The binary64 constant is R171's own completion
of the source's `0x7ff8...`, and that the two constants are quiet NaNs rests on the tables of R162 and R164; the spec
marks all of these `[from general knowledge, not in source]` (log entry 9, PRESUMED). -/
def Obligations.DefaultNaNCommands : Prop :=
  encode .defaultNaN32 = 0x0000000D#32 ∧ encode .defaultNaN64 = 0x0000000E#32 ∧
  readBinary32 0x7FC00000#32 = .quietNaN false 0 ∧
  readBinary64 0x7FF8000000000000#64 = .quietNaN false 0 ∧
  ∀ s : State, completesWith .defaultNaN32 s s.qc (resultOnly 0x7FC00000#128) ∧
    completesWith .defaultNaN64 s s.qc (resultOnly 0x7FF8000000000000#128)

/-! ## QC -/

/-- R190. -/
def Obligations.ReadQCCommand : Prop :=
  encode .readQC = 0x0000000F#32 ∧
  ∀ s : State, ∃ r, completesWith .readQC s s.qc (resultOnly r) ∧ r.toNat = if s.qc then 1 else 0

/-- R191. -/
def Obligations.WriteQCCommand : Prop :=
  encode .writeQC = 0x00000010#32 ∧
  ∀ s : State, completesWith .writeQC s (decide (s.ports.a.toNat % 2 = 1)) (resultOnly 0#128)

/-- R21: who writes `QC` and how, who reads it, and its reset value. -/
def Obligations.QCReadersAndWriters : Prop :=
  State.reset.qc = false ∧
  ∀ (i : Instr) (s : State), ∃ t o, exec i s = .next t ∧ t.out = some o ∧
    (saturates i = true → t.qc = (s.qc || o.saturated)) ∧
    (i = .writeQC → t.qc = s.ports.a.getLsbD 0) ∧
    (saturates i = false → i ≠ .writeQC → t.qc = s.qc) ∧
    (s.qc = true → t.qc = false → i = .writeQC) ∧
    (i = .readQC → ∃ x, o = .ok x ∧ x.r.toNat = s.qc.toNat) ∧
    (i ≠ .readQC → ∀ b, ∃ t', exec i { s with qc := b } = .next t' ∧ t'.out = some o)

/-- R145: a saturating command leaves `QC OR SAT`, and `QC = 1` stays 1 through any run without `writeQC`. -/
def Obligations.QCIsSticky : Prop :=
  (∀ (i : Instr) (s : State), saturates i = true →
    ∃ o, completesWith i s (s.qc || o.sat) o) ∧
  ∀ (k : Nat) (s t : State), runSteps k s = .next t → s.qc = true →
    (∀ p ∈ s.pending.take k, decode p.cmd ≠ .ok .writeQC) → t.qc = true

/-- R145, R25, R21, R201, R236: over a run without `writeQC`, `QC` ends at the OR of its start and of every `SAT`
observed, because no other command writes `QC` (R21) and a command that faults keeps it (R201); so the order of the
commands' saturations does not matter. -/
def Obligations.FinalQCIsOrOfSaturations : Prop :=
  ∀ (qc : Bool) (ps : List Ports), (∀ p ∈ ps, decode p.cmd ≠ .ok .writeQC) →
    (observe qc ps).qc = (qc || (observe qc ps).outcomes.any CommandOutcome.saturated)
end

