-- ==== Sys2Proof/Laws/Operands.lean ====
section
/-! SUPPORT. The bits and numbers of the operand primitives, so that no later proof unfolds them. -/

namespace Sys2Proof.Machine

/-! ## Fields of a port -/

@[simp] theorem getLsbD_lowBits (n : Nat) (v : Port) (j : Nat) :
    (lowBits n v).getLsbD j = (decide (j < n) && v.getLsbD j) := by
  simp [lowBits, BitVec.getLsbD_setWidth]

@[simp] theorem getLsbD_slotBits (n : Nat) (v : Slot) (j : Nat) :
    (slotBits n v).getLsbD j = (decide (j < n) && v.getLsbD j) := by
  simp [slotBits, BitVec.getLsbD_setWidth]

theorem getLsbD_driveR {n : Nat} (v : BitVec n) (j : Nat) :
    (driveR v).getLsbD j = (decide (j < 128) && v.getLsbD j) := by
  simp [driveR, BitVec.getLsbD_setWidth]

theorem toNat_driveR {n : Nat} (hn : n ≤ 128) (v : BitVec n) : (driveR v).toNat = v.toNat := by
  have h := v.isLt
  have : (2 : Nat) ^ n ≤ 2 ^ 128 := Nat.pow_le_pow_right (by omega) hn
  simp only [driveR, BitVec.toNat_setWidth]
  exact Nat.mod_eq_of_lt (by omega)

@[simp] theorem toNat_lowBits (n : Nat) (v : Port) : (lowBits n v).toNat = v.toNat % 2 ^ n := by
  simp [lowBits]

@[simp] theorem toNat_ones (n : Nat) : (ones n).toNat = 2 ^ n - 1 := by
  simp [ones]

/-- `signExtend` repeats the top bit of a field (R103, "replicate bit n−1 upward"). -/
theorem getLsbD_sext64 {n : Nat} (v : BitVec n) (j : Nat) :
    (sext64 v).getLsbD j =
      (decide (j < 64) && if j < n then v.getLsbD j else v.msb) := by
  simp [sext64, BitVec.getLsbD_signExtend]

/-! ## Lanes -/

theorem laneWidth_bits_pos (w : LaneWidth) : 0 < w.bits := by cases w <;> decide

theorem laneWidth_bits_le (w : LaneWidth) : w.bits ≤ 64 := by cases w <;> decide

theorem containerWidth_bits_le (c : ContainerWidth) : c.bits ≤ 128 := by cases c <;> decide

/-- "the legal counts are 1, 2, 4, 8 and 16" (R120): the lanes fill the container exactly. -/
theorem bits_mul_laneCount {w : LaneWidth} {c : ContainerWidth} (h : w.bits ≤ c.bits) :
    w.bits * laneCount w c = c.bits := by
  revert h; cases w <;> cases c <;> decide

theorem laneCount_le_sixteen (w : LaneWidth) (c : ContainerWidth) : laneCount w c ≤ 16 := by
  cases w <;> cases c <;> decide

theorem lanesFit_iff (w : LaneWidth) (c : ContainerWidth) : lanesFit w c = true ↔ w.bits ≤ c.bits := by
  simp [lanesFit]

@[simp] theorem getLsbD_laneOf (w : Nat) (v : Port) (i j : Nat) :
    (laneOf w v i).getLsbD j = (decide (j < w) && v.getLsbD (i * w + j)) := by
  simp [laneOf, BitVec.getLsbD_extractLsb']

theorem getD_ofFn (f : Nat → Slot) (i : Nat) :
    (Vector.ofFn (n := 16) fun k => f k.val).getD i 0#64 = if i < 16 then f i else 0#64 := by
  by_cases h : i < 16 <;> simp [Vector.getD, h]

/-- Slot `i` of a split (R123). -/
theorem getD_splitSlots (w : LaneWidth) (c : ContainerWidth) (v : Port) (i : Nat) :
    (splitSlots w c v).getD i 0#64 =
      if i < laneCount w c then (laneOf w.bits v i).setWidth 64 else 0#64 := by
  rw [splitSlots, getD_ofFn (fun k => if k < laneCount w c then (laneOf w.bits v k).setWidth 64 else 0#64)]
  have := laneCount_le_sixteen w c
  by_cases h : i < laneCount w c
  · simp [h, show i < 16 by omega]
  · simp [h]

/-- Bit `j` of joined lanes is bit `j % w` of lane `j / w` (R122, R124). -/
theorem getLsbD_concatLanes {w : Nat} (hw : 0 < w) (lane : Nat → BitVec w) (k j : Nat) :
    (concatLanes w lane k).getLsbD j = (decide (j < w * k) && (lane (j / w)).getLsbD (j % w)) := by
  induction k with
  | zero => simp [concatLanes]
  | succ k ih =>
    rw [concatLanes, BitVec.getLsbD_setWidth, BitVec.getLsbD_append, ih]
    by_cases h1 : j < w * k
    · have : j < w * (k + 1) := by rw [Nat.mul_succ]; omega
      simp [h1, this]
    · by_cases h2 : j < w * (k + 1)
      · have hq : j / w = k := by
          rw [Nat.div_eq_iff hw]; rw [Nat.mul_succ] at h2; rw [Nat.mul_comm k w]; omega
        have hm : j % w = j - w * k := by
          have := Nat.div_add_mod j w; rw [hq] at this; omega
        simp [h1, h2, hq, hm]
      · simp [h1, h2]

end Sys2Proof.Machine
end

