-- ==== Sys2Proof/Laws/Flags.lean ====
section
/-! SUPPORT. What clamping and saturation give, said once (spec/42_saturating.md R140, R144, R146). -/

namespace Sys2Proof.Machine

/-- A clamp is the value itself inside the range, and an end of it outside. -/
theorem clamp_cases (t lo hi : Int) :
    (t < lo ∧ clamp t lo hi = lo) ∨ (hi < t ∧ clamp t lo hi = hi) ∨
      (lo ≤ t ∧ t ≤ hi ∧ clamp t lo hi = t) := by
  unfold clamp
  split
  · exact .inl ⟨by assumption, rfl⟩
  · split
    · exact .inr (.inl ⟨by omega, rfl⟩)
    · exact .inr (.inr ⟨by omega, by omega, rfl⟩)

theorem minValue_le_maxValue (g : Signedness) (w : LaneWidth) : minValue g w ≤ maxValue g w := by
  cases g <;> cases w <;> decide

/-- The three cases of a saturated result (R142, R144): below, above, inside the range. -/
theorem saturate_cases (g : Signedness) (w : LaneWidth) (t : Int) :
    (t < minValue g w ∧ saturate g w t = minValue g w ∧ satFlag g w t = true) ∨
    (maxValue g w < t ∧ saturate g w t = maxValue g w ∧ satFlag g w t = true) ∨
    (minValue g w ≤ t ∧ t ≤ maxValue g w ∧ saturate g w t = t ∧ satFlag g w t = false) := by
  rcases clamp_cases t (minValue g w) (maxValue g w) with ⟨h1, h2⟩ | ⟨h1, h2⟩ | ⟨h1, h2, h3⟩
  · refine .inl ⟨h1, h2, ?_⟩
    simp only [satFlag, saturate, h2, ne_eq, decide_eq_true_eq]; omega
  · refine .inr (.inl ⟨h1, h2, ?_⟩)
    simp only [satFlag, saturate, h2, ne_eq, decide_eq_true_eq]; omega
  · refine .inr (.inr ⟨h1, h2, h3, ?_⟩)
    simp [satFlag, saturate, h3]

/-- A value of the range survives being put in a field and read back (R9). -/
theorem read_enc (g : Signedness) (w : LaneWidth) {c : Int} (h1 : minValue g w ≤ c) (h2 : c ≤ maxValue g w) :
    operand g w (driveR (enc w.bits c)) = c := by
  have hb : lowBits w.bits (driveR (enc w.bits c)) = enc w.bits c := by
    apply BitVec.eq_of_getLsbD_eq
    intro i hi
    have := laneWidth_bits_le w
    simp only [getLsbD_lowBits, getLsbD_driveR]
    simp [hi, show i < 128 by omega]
  cases g
  · rw [operand, hb, uint, enc, BitVec.toNat_ofInt]
    cases w <;> simp_all [minValue, maxValue, LaneWidth.bits] <;> omega
  · rw [operand, hb, sint, enc, BitVec.toInt_ofInt]
    cases w <;> simp_all [minValue, maxValue, LaneWidth.bits, Int.bmod] <;> omega

end Sys2Proof.Machine
end

