-- ==== Sys2Proof/Laws/PerInstr.lean ====
section
/-! SUPPORT. A statement about every command as syntax, one lemma per constructor: what the word of a command
holds in the fields the command does not use (spec/30_encoding.md R61, R62, R67, R68). -/

namespace Sys2Proof.Laws

theorem getLsbD_fieldAt (k v j : Nat) :
    (fieldAt k v).getLsbD j = (decide (j < 32) && decide (k ≤ j) && v.testBit (j - k)) := by
  simp only [fieldAt, BitVec.getLsbD_shiftLeft, BitVec.getLsbD_ofNat]
  by_cases h1 : j < 32
  · by_cases h2 : k ≤ j
    · simp [h1, h2, show ¬ j < k by omega, show j - k < 32 by omega]
    · simp [h2, show j < k by omega]
  · simp [h1]

/-- The opcode a command has in the opcode map (R62). -/
def opcodeOf : Instr → BitVec 5
  | .mask _ => 0x01
  | .maskLong _ => 0x02
  | .zeroExtend _ => 0x03
  | .signExtend _ => 0x04
  | .splitLanes _ _ => 0x05
  | .packLanes _ _ => 0x06
  | .saturatingAdd _ _ => 0x07
  | .saturatingSub _ _ => 0x08
  | .bitsOfFloat32 => 0x09
  | .float32OfBits => 0x0A
  | .bitsOfDouble => 0x0B
  | .doubleOfBits => 0x0C
  | .defaultNaN32 => 0x0D
  | .defaultNaN64 => 0x0E
  | .readQC => 0x0F
  | .writeQC => 0x10

/-- The fields of an immediate's word, from its number. -/
theorem fieldsOf_immediate (op : BitVec 5) {n : Nat} (h : n ≤ 127) :
    fieldsOf (op.setWidth 32 ||| fieldAt 10 n) = ⟨op, 0, 0, 0, BitVec.ofNat 7 n, 0⟩ := by
  have bit : ∀ j, (op.setWidth 32 ||| fieldAt 10 n).getLsbD j =
      ((decide (j < 32) && op.getLsbD j) || (decide (j < 32) && decide (10 ≤ j) && n.testBit (j - 10))) := by
    intro j
    rw [BitVec.getLsbD_or, BitVec.getLsbD_setWidth, getLsbD_fieldAt]
  have high : ∀ j, 7 ≤ j → n.testBit j = false := fun j hj =>
    Nat.testBit_lt_two_pow (Nat.lt_of_lt_of_le (by omega : n < 2 ^ 7) (Nat.pow_le_pow_right (by omega) hj))
  have top : ∀ j, 5 ≤ j → op.getLsbD j = false := fun j hj => BitVec.getLsbD_of_ge op j hj
  simp only [fieldsOf, Fields.mk.injEq]
  refine ⟨?_, ?_, ?_, ?_, ?_, ?_⟩ <;>
    (apply BitVec.eq_of_getLsbD_eq; intro i hi; rw [BitVec.getLsbD_extractLsb', bit])
  · simp [hi, show i < 32 by omega, show ¬ 10 ≤ i by omega]
  · simp [show ¬ 10 ≤ 5 + i by omega]
  · simp [top (7 + i) (by omega), show ¬ 10 ≤ 7 + i by omega]
  · simp [top (9 + i) (by omega), show ¬ 10 ≤ 9 + i by omega]
  · simp [hi, top (10 + i) (by omega), show 10 + i < 32 by omega, BitVec.getLsbD_ofNat, -BitVec.getLsbD_eq_getElem]
  · simp [top (17 + i) (by omega), high (17 + i - 10) (by omega)]

end Sys2Proof.Laws

namespace Sys2Proof.Laws.EncodedOpcode

/-- The word of a well-formed command holds its opcode in `OP`, zero in `RES`, and zero in every field the
command does not use. -/
def Statement (i : Instr) : Prop :=
  i.wellFormed = true →
    (fieldsOf (encode i)).op = opcodeOf i ∧ (fieldsOf (encode i)).res = 0 ∧
    ∃ op, Opcode.ofBits (opcodeOf i) = some op ∧
      (op.uses.lw = false → (fieldsOf (encode i)).lw = 0) ∧
      (op.uses.cw = false → (fieldsOf (encode i)).cw = 0) ∧
      (op.uses.s = false → (fieldsOf (encode i)).s = 0) ∧
      (op.uses.n = false → (fieldsOf (encode i)).n = 0)

theorem immediate {op : BitVec 5} {o : Opcode} {n : Nat} {i : Instr} (h : n ≤ 127)
    (he : encode i = op.setWidth 32 ||| fieldAt 10 n) (ho : opcodeOf i = op) (hr : Opcode.ofBits op = some o)
    (hu : o.uses.n = true) : Statement i := by
  intro _
  rw [he, ho, fieldsOf_immediate op h]
  exact ⟨rfl, rfl, o, hr, fun _ => rfl, fun _ => rfl, fun _ => rfl, fun hn => by rw [hu] at hn; cases hn⟩

theorem mask (n : Nat) : Statement (.mask n) := fun h =>
  immediate (op := 0x01) (by simpa [Instr.wellFormed, countFits] using h) rfl rfl rfl rfl h
theorem maskLong (n : Nat) : Statement (.maskLong n) := fun h =>
  immediate (op := 0x02) (by simpa [Instr.wellFormed, countFits] using h) rfl rfl rfl rfl h
theorem zeroExtend (n : Nat) : Statement (.zeroExtend n) := fun h =>
  immediate (op := 0x03) (by simpa [Instr.wellFormed, countFits] using h) rfl rfl rfl rfl h
theorem signExtend (n : Nat) : Statement (.signExtend n) := fun h =>
  immediate (op := 0x04) (by simpa [Instr.wellFormed, countFits] using h) rfl rfl rfl rfl h
theorem splitLanes (w : LaneWidth) (c : ContainerWidth) : Statement (.splitLanes w c) := fun _ => by
  refine ⟨?_, ?_, .splitLanes, rfl, ?_, ?_, ?_, ?_⟩ <;> cases w <;> cases c <;> decide
theorem packLanes (w : LaneWidth) (c : ContainerWidth) : Statement (.packLanes w c) := fun _ => by
  refine ⟨?_, ?_, .packLanes, rfl, ?_, ?_, ?_, ?_⟩ <;> cases w <;> cases c <;> decide
theorem saturatingAdd (w : LaneWidth) (g : Signedness) : Statement (.saturatingAdd w g) := fun _ => by
  refine ⟨?_, ?_, .saturatingAdd, rfl, ?_, ?_, ?_, ?_⟩ <;> cases w <;> cases g <;> decide
theorem saturatingSub (w : LaneWidth) (g : Signedness) : Statement (.saturatingSub w g) := fun _ => by
  refine ⟨?_, ?_, .saturatingSub, rfl, ?_, ?_, ?_, ?_⟩ <;> cases w <;> cases g <;> decide
theorem bitsOfFloat32 : Statement .bitsOfFloat32 := fun _ => by
  refine ⟨?_, ?_, .bitsOfFloat32, rfl, ?_, ?_, ?_, ?_⟩ <;> decide
theorem float32OfBits : Statement .float32OfBits := fun _ => by
  refine ⟨?_, ?_, .float32OfBits, rfl, ?_, ?_, ?_, ?_⟩ <;> decide
theorem bitsOfDouble : Statement .bitsOfDouble := fun _ => by
  refine ⟨?_, ?_, .bitsOfDouble, rfl, ?_, ?_, ?_, ?_⟩ <;> decide
theorem doubleOfBits : Statement .doubleOfBits := fun _ => by
  refine ⟨?_, ?_, .doubleOfBits, rfl, ?_, ?_, ?_, ?_⟩ <;> decide
theorem defaultNaN32 : Statement .defaultNaN32 := fun _ => by
  refine ⟨?_, ?_, .defaultNaN32, rfl, ?_, ?_, ?_, ?_⟩ <;> decide
theorem defaultNaN64 : Statement .defaultNaN64 := fun _ => by
  refine ⟨?_, ?_, .defaultNaN64, rfl, ?_, ?_, ?_, ?_⟩ <;> decide
theorem readQC : Statement .readQC := fun _ => by
  refine ⟨?_, ?_, .readQC, rfl, ?_, ?_, ?_, ?_⟩ <;> decide
theorem writeQC : Statement .writeQC := fun _ => by
  refine ⟨?_, ?_, .writeQC, rfl, ?_, ?_, ?_, ?_⟩ <;> decide

end Sys2Proof.Laws.EncodedOpcode
end

