-- ==== Sys2Proof/Laws/State.lean ====
section
/-! SUPPORT. The field lemmas of the state updates, and what the issuing, completing and faulting operations
answer, said once. -/

namespace Sys2Proof.Machine

/-! ## Field updates -/

@[simp] theorem withQC_qc (b : Bool) (s : State) : (s.withQC b).qc = b := rfl
@[simp] theorem withQC_ports (b : Bool) (s : State) : (s.withQC b).ports = s.ports := rfl
@[simp] theorem withQC_out (b : Bool) (s : State) : (s.withQC b).out = s.out := rfl
@[simp] theorem withQC_pending (b : Bool) (s : State) : (s.withQC b).pending = s.pending := rfl
@[simp] theorem withOut_qc (o : CommandOutcome) (s : State) : (s.withOut o).qc = s.qc := rfl
@[simp] theorem withOut_ports (o : CommandOutcome) (s : State) : (s.withOut o).ports = s.ports := rfl
@[simp] theorem withOut_out (o : CommandOutcome) (s : State) : (s.withOut o).out = some o := rfl
@[simp] theorem withOut_pending (o : CommandOutcome) (s : State) : (s.withOut o).pending = s.pending := rfl
@[simp] theorem idle_qc (s : State) : (idle s).qc = s.qc := rfl
@[simp] theorem idle_ports (s : State) : (idle s).ports = s.ports := rfl
@[simp] theorem idle_out (s : State) : (idle s).out = none := rfl
@[simp] theorem idle_pending (s : State) : (idle s).pending = s.pending := rfl

/-! ## Issuing -/

theorem nextCommand_of_nil {s : State} (h : s.pending = []) : nextCommand s = none := by
  simp [nextCommand, h]

theorem nextCommand_of_cons {s : State} {p : Ports} {rest : List Ports} (h : s.pending = p :: rest) :
    nextCommand s = some { qc := s.qc, ports := p, out := none, pending := rest } := by
  simp [nextCommand, h]

/-! ## What an operation answers

Every operation that ends a command answers a next state in which only `QC` and the outcome can differ. -/

/-- The shape every meaning's answer has. -/
def answers (s : State) (qc : Bool) (o : CommandOutcome) : Answer :=
  .next { qc := qc, ports := s.ports, out := some o, pending := s.pending }

theorem complete_answers (r : Port) (s : State) :
    complete r s = answers s s.qc (.ok { r := r, lout := zeroSlots, sat := false }) := rfl

theorem completeLanes_answers (lout : Slots) (s : State) :
    completeLanes lout s = answers s s.qc (.ok { r := 0#128, lout := lout, sat := false }) := rfl

theorem completeSaturating_answers (g : Signedness) (w : LaneWidth) (t : Int) (s : State) :
    completeSaturating g w t s = answers s (s.qc || satFlag g w t)
      (.ok { r := driveR (enc w.bits (saturate g w t)), lout := zeroSlots, sat := satFlag g w t }) := rfl

theorem completeWriteQC_answers (b : Bool) (s : State) :
    completeWriteQC b s = answers s b (.ok { r := 0#128, lout := zeroSlots, sat := false }) := rfl

theorem raise_answers (f : FaultReport) (s : State) : raise f s = answers s s.qc (.fault f) := rfl

end Sys2Proof.Machine
end

