-- ==== Sys2Proof/Laws/Step.lean ====
section
/-! SUPPORT. What `exec` and `step` can do, said once. -/

namespace Sys2Proof.Machine

/-- Every command answers a next state in which only `QC` and the outcome can differ from the state it ran in:
the inversion lemma of `exec` (spec/10_state.md R22). -/
theorem exec_answers (i : Instr) (s : State) : ∃ qc o, exec i s = answers s qc o := by
  cases i with
  | mask n => simp only [exec, execMask]; split <;> exact ⟨_, _, rfl⟩
  | maskLong n => simp only [exec, execMaskLong]; split <;> exact ⟨_, _, rfl⟩
  | zeroExtend n => simp only [exec, execZeroExtend]; split <;> exact ⟨_, _, rfl⟩
  | signExtend n => simp only [exec, execSignExtend]; split <;> exact ⟨_, _, rfl⟩
  | splitLanes w c => simp only [exec, execSplitLanes]; split <;> exact ⟨_, _, rfl⟩
  | packLanes w c => simp only [exec, execPackLanes]; split <;> exact ⟨_, _, rfl⟩
  | saturatingAdd w g => exact ⟨_, _, rfl⟩
  | saturatingSub w g => exact ⟨_, _, rfl⟩
  | bitsOfFloat32 => exact ⟨_, _, rfl⟩
  | float32OfBits => exact ⟨_, _, rfl⟩
  | bitsOfDouble => exact ⟨_, _, rfl⟩
  | doubleOfBits => exact ⟨_, _, rfl⟩
  | defaultNaN32 => exact ⟨_, _, rfl⟩
  | defaultNaN64 => exact ⟨_, _, rfl⟩
  | readQC => exact ⟨_, _, rfl⟩
  | writeQC => exact ⟨_, _, rfl⟩

theorem runSteps_eq_core_run (k : Nat) (s : core.State) : core.run k s = runSteps k s := by
  induction k generalizing s with
  | zero => rfl
  | succ k ih =>
    have h : core.step s = step s := rfl
    have hr : runSteps (k + 1) s = match step s with
      | .next t => runSteps k t
      | .fault r => .fault r
      | .refused r => .refused r := rfl
    refine Eq.trans ?_ hr.symm
    rw [Host.Core.run, h]
    cases step s with
    | next t => exact ih t
    | fault r => rfl
    | refused r => rfl

end Sys2Proof.Machine
end

