-- ==== Sys2Proof/Tests/Slice0.lean ====
section
/-! SUPPORT. The model's own tests. Each expected value is the spec's: a word written out from the field table of
spec/30_encoding.md R61, R62, or a row of spec/95_test_vectors.md (section numbers in the comments). The
witness_ theorems at the end show states and operands that meet the hypotheses of a statement. -/

namespace Sys2Proof.Tests

open Sys2Proof Sys2Proof.Machine

/-! ## Helpers -/

/-- Input ports with a command word, `A` and `B`, and the first lane slots. -/
def inputs (cmd : Word) (a : Port := 0) (b : Port := 0) (lin : List Slot := []) : Ports where
  cmd := cmd
  a := a
  b := b
  lin := Vector.ofFn fun i => lin.getD i.val 0#64

/-- A state in which the host issues these commands next. -/
def issuing (qc : Bool) (ps : List Ports) : State where
  qc := qc
  ports := idlePorts
  out := none
  pending := ps

/-- A state with these values on the ports and no command waiting, for statements about `exec`. -/
def onPorts (p : Ports) : State where
  qc := false
  ports := p
  out := none
  pending := []

/-- A completed command: the new `QC`, `R` and `SAT`. -/
def completed (qc : Bool) (r : Port) (sat : Bool) : Option (Bool × CommandOutcome) :=
  some (qc, .ok { r := r, lout := zeroSlots, sat := sat })

/-- A completed split: `QC` and the first lane slots. -/
def lanes (qc : Bool) (l : List Slot) : Option (Bool × CommandOutcome) :=
  some (qc, .ok { r := 0#128, lout := Vector.ofFn fun i => l.getD i.val 0#64, sat := false })

/-- A faulted command: `QC` and the report. -/
def faulted (qc : Bool) (f : FaultReport) : Option (Bool × CommandOutcome) := some (qc, .fault f)

/-! ## Well-formedness: `N` has seven bits (R66) -/

theorem test_wf_refuses_mask_128 : Instr.wellFormed (.mask 128) = false := by decide
theorem test_wf_refuses_maskLong_128 : Instr.wellFormed (.maskLong 128) = false := by decide
theorem test_wf_refuses_zeroExtend_200 : Instr.wellFormed (.zeroExtend 200) = false := by decide
theorem test_wf_refuses_signExtend_128 : Instr.wellFormed (.signExtend 128) = false := by decide
theorem test_wf_admits_mask_40 : Instr.wellFormed (.mask 40) = true := by decide

/-! ## Decoding, words written out as RES N S CW LW OP (R61, R62) -/

theorem test_decode_mask :
    decode 0b000000000000000_0000101_0_00_00_00001#32 = .ok (.mask 5) := by decide
theorem test_decode_maskLong :
    decode 0b000000000000000_0101000_0_00_00_00010#32 = .ok (.maskLong 40) := by decide
theorem test_decode_zeroExtend :
    decode 0b000000000000000_0001000_0_00_00_00011#32 = .ok (.zeroExtend 8) := by decide
theorem test_decode_signExtend :
    decode 0b000000000000000_1111111_0_00_00_00100#32 = .ok (.signExtend 127) := by decide
theorem test_decode_splitLanes :
    decode 0b000000000000000_0000000_0_01_11_00101#32 = .ok (.splitLanes .w64 .c64) := by decide
theorem test_decode_packLanes :
    decode 0b000000000000000_0000000_0_10_01_00110#32 = .ok (.packLanes .w16 .c128) := by decide
theorem test_decode_saturatingAdd :
    decode 0b000000000000000_0000000_1_00_00_00111#32 = .ok (.saturatingAdd .w8 .signed) := by decide
theorem test_decode_saturatingSub :
    decode 0b000000000000000_0000000_0_00_10_01000#32 = .ok (.saturatingSub .w32 .unsigned) := by decide
theorem test_decode_bitsOfFloat32 :
    decode 0b000000000000000_0000000_0_00_00_01001#32 = .ok .bitsOfFloat32 := by decide
theorem test_decode_float32OfBits :
    decode 0b000000000000000_0000000_0_00_00_01010#32 = .ok .float32OfBits := by decide
theorem test_decode_bitsOfDouble :
    decode 0b000000000000000_0000000_0_00_00_01011#32 = .ok .bitsOfDouble := by decide
theorem test_decode_doubleOfBits :
    decode 0b000000000000000_0000000_0_00_00_01100#32 = .ok .doubleOfBits := by decide
theorem test_decode_defaultNaN32 :
    decode 0b000000000000000_0000000_0_00_00_01101#32 = .ok .defaultNaN32 := by decide
theorem test_decode_defaultNaN64 :
    decode 0b000000000000000_0000000_0_00_00_01110#32 = .ok .defaultNaN64 := by decide
theorem test_decode_readQC :
    decode 0b000000000000000_0000000_0_00_00_01111#32 = .ok .readQC := by decide
theorem test_decode_writeQC :
    decode 0b000000000000000_0000000_0_00_00_10000#32 = .ok .writeQC := by decide

/-! Reserved words, one for each check of R69 (95_test_vectors.md 2.6 and the fault rows of 2.1 to 2.5). -/

theorem test_decode_op_zero : decode 0x00000000#32 = .error .opcode := by decide
theorem test_decode_op_high : decode 0x00000011#32 = .error .opcode := by decide
theorem test_decode_res : decode 0x00020001#32 = .error .resBits := by decide
theorem test_decode_unused_lw : decode 0x00000029#32 = .error .unusedLW := by decide
theorem test_decode_unused_cw : decode 0x00000187#32 = .error .unusedCW := by decide
theorem test_decode_unused_s : decode 0x00000385#32 = .error .unusedS := by decide
theorem test_decode_unused_n : decode 0x0000040F#32 = .error .unusedN := by decide
theorem test_decode_container_code : decode 0x00000185#32 = .error .containerCode := by decide

/-- Stored words of program P1, steps 4 and 7 (95_test_vectors.md section 3). -/
theorem test_stored_bytes :
    wordsOfBytes [0x28, 0x02, 0x00, 0x00, 0x01, 0x84, 0x00, 0x00] = some [0x00000228#32, 0x00008401#32] := by
  decide
theorem test_table_word : decodeTableWord 32 0x00002004 = some (.signExtend 8) := by decide

/-! ## Assembler (R72, R73) -/

theorem test_assemble_case : assemble "SATURATINGADD.S8".toList = some (.saturatingAdd .w8 .signed) := by decide
theorem test_assemble_hex : assemble "signExtend #0x08".toList = some (.signExtend 8) := by decide
theorem test_assemble_lanes : assemble "splitLanes.16 c64".toList = some (.splitLanes .w16 .c64) := by decide
theorem test_assemble_too_large : assemble "mask #128".toList = none := by decide
theorem test_assemble_width_99 : assemble "saturatingAdd.s99".toList = none := by decide
theorem test_assemble_pseudo : assemblePseudo "saturatingNeg.s16".toList = some (.saturatingNeg .signed .w16) := by
  decide

/-- Program P1, steps 6, 7 and 9 (95_test_vectors.md section 3). -/
theorem test_assemble_listing : assembleListing ("readQC".toList ++ [Char.ofNat 10] ++ "mask #33".toList ++
    [Char.ofNat 10, Char.ofNat 10] ++ "clearQC".toList) = some [0x0000000F#32, 0x00008401#32, 0x00000010#32] := by
  decide

/-! ## Masks and extension (95_test_vectors.md 2.1) -/

theorem test_mask_32 : command false (inputs 0x00008001) = completed false 0xFFFFFFFF false := by decide
theorem test_mask_33 : command false (inputs 0x00008401) =
    faulted false (.invalidWidth 0x00008401 (.count 33)) := by decide
theorem test_maskLong_64 : command false (inputs 0x00010002) = completed false 0xFFFFFFFFFFFFFFFF false := by decide
theorem test_maskLong_65 : command false (inputs 0x00010402) =
    faulted false (.invalidWidth 0x00010402 (.count 65)) := by decide
theorem test_zeroExtend_0 : command false (inputs 0x00000003 0xFFFFFFFFFFFFFFFF) = completed false 0 false := by
  decide
theorem test_zeroExtend_8 : command false (inputs 0x00002003 0x00000000000000FF00000000000000AB) =
    completed false 0xAB false := by decide
theorem test_signExtend_8 : command false (inputs 0x00002004 0x1FF) =
    completed false 0xFFFFFFFFFFFFFFFF false := by decide
theorem test_signExtend_63 : command false (inputs 0x0000FC04 0x4000000000000000) =
    completed false 0xC000000000000000 false := by decide

/-! ## Lanes (95_test_vectors.md 2.2) -/

theorem test_split_8_c32 : command false (inputs 0x00000005 0xDDCCBBAA) =
    lanes false [0xAA, 0xBB, 0xCC, 0xDD] := by decide
theorem test_split_64_c128 : command false (inputs 0x00000165 0x11111111111111112222222222222222) =
    lanes false [0x2222222222222222, 0x1111111111111111] := by decide
theorem test_pack_truncates : command false (inputs 0x00000006 0 0 [0xFFFFFFFFFFFFFF80, 0x1FF, 0x7F, 0x100, 0x55]) =
    completed false 0x007FFF80 false := by decide
theorem test_pack_64_c32 : command false (inputs 0x00000066 0 0 [1]) =
    faulted false (.invalidWidth 0x00000066 (.lanes .w64 .c32)) := by decide

/-! ## Saturation (95_test_vectors.md 2.3) -/

theorem test_add_s8_e2 : command false (inputs 0x00000207 0x7F 0x01) = completed true 0x7F true := by decide
theorem test_add_u64 : command false (inputs 0x00000067 0x8000000000000000 0x7FFFFFFFFFFFFFFF) =
    completed false 0xFFFFFFFFFFFFFFFF false := by decide
theorem test_sub_s8 : command false (inputs 0x00000208 0x05 0x09) = completed false 0xFC false := by decide
theorem test_sub_s64 : command false (inputs 0x00000268 0 0x8000000000000000) =
    completed true 0x7FFFFFFFFFFFFFFF true := by decide

/-! ## Floating-point bits (95_test_vectors.md 2.4) -/

theorem test_bitsOfFloat32 : command false (inputs 0x00000009 0xFF800001) = completed false 0xFF800001 false := by
  decide
theorem test_float32OfBits : command false (inputs 0x0000000A 0xDEADBEEF007FFFFF) =
    completed false 0x007FFFFF false := by decide
theorem test_bitsOfDouble : command false (inputs 0x0000000B 0x8000000000000000) =
    completed false 0x8000000000000000 false := by decide
theorem test_doubleOfBits : command false (inputs 0x0000000C 0x0000000000001234400921FB54442D18) =
    completed false 0x400921FB54442D18 false := by decide
theorem test_defaultNaN32 : command true (inputs 0x0000000D) = completed true 0x7FC00000 false := by decide
theorem test_defaultNaN64 : command false (inputs 0x0000000E) = completed false 0x7FF8000000000000 false := by decide

/-- `0xC0490FDB` is `−13176795 × 2^−22` (the table after section 2.4). -/
theorem test_read_minus_pi : finiteValue binary32 (readBinary32 0xC0490FDB) = some (-13176795, -22) := by decide
/-- `0xFF800001` is a signalling NaN with sign 1 and payload 1. -/
theorem test_read_signalling : readBinary32 0xFF800001 = .signallingNaN true 1 := by decide
/-- `0xFFFFFFFF` is a quiet NaN with sign 1 and payload 0x3FFFFF. -/
theorem test_read_quiet : readBinary32 0xFFFFFFFF = .quietNaN true 0x3FFFFF := by decide
/-- `0x400921FB54442D18` is `0x1921FB54442D18 × 2^−51`. -/
theorem test_read_pi : finiteValue binary64 (readBinary64 0x400921FB54442D18) = some (0x1921FB54442D18, -51) := by
  decide

/-! ## QC (95_test_vectors.md 2.5) and reserved words (2.6) -/

theorem test_readQC : command true (inputs 0x0000000F) = completed true 1 false := by decide
theorem test_writeQC_clears : command true (inputs 0x00000010 0xFFFFFFFE) = completed false 0 false := by decide
theorem test_writeQC_sets : command false (inputs 0x00000010 1) = completed true 0 false := by decide
theorem test_reserved_first : command true (inputs 0x0000A201) =
    faulted true (.reservedEncoding 0x0000A201) := by decide

/-- The host's way to issue a word runs it as the first command after reset. -/
theorem test_withFetchWord :
    (match step (State.reset.withFetchWord 32 0x0000000D) with
      | .next t => t.out
      | _ => none) = some (.ok (resultOnly 0x7FC00000#128)) := by decide

/-! ## Witnesses -/

theorem witness_wellFormed : Instr.wellFormed (.mask 127) = true ∧ Instr.wellFormed (.signExtend 0) = true ∧
    Instr.wellFormed (.splitLanes .w64 .c32) = true := by decide
theorem witness_DecodeOfEncode : Instr.wellFormed (.signExtend 127) = true := by decide
theorem witness_EncodeOfDecode : decode 0x00000207#32 = .ok (.saturatingAdd .w8 .signed) := by decide
/-- Each disjunct of the reserved words, at a word of 95_test_vectors.md, and a word that is not reserved. -/
theorem witness_ReservedWordsExactly : (issuing true [inputs 0]).pending = inputs 0 :: [] ∧
    reservedNumber 0 ∧ reservedNumber 0x11 ∧ reservedNumber 0x1F ∧ reservedNumber 0x00020001 ∧
    reservedNumber 0x0000A201 ∧ reservedNumber 0x00000185 ∧ reservedNumber 0x00000187 ∧ reservedNumber 0x0000040F ∧
    ¬ reservedNumber 0x00000165 := by
  refine ⟨rfl, ?_⟩
  simp [reservedNumber]
theorem witness_EveryLegalWord : Instr.wellFormed (.mask 32) = true ∧ widthRefused (.mask 32) = false ∧
    Instr.wellFormed (.mask 33) = true ∧ widthRefused (.mask 33) = true ∧
    widthRefused (.packLanes .w64 .c32) = true ∧ widthRefused (.packLanes .w64 .c64) = false := by decide
theorem witness_AssemblerWritesNoReservedWord : assemble "mask #40".toList = some (.mask 40) ∧
    lineWord "setQC".toList = some 0x00000010#32 := by decide
theorem witness_PseudoInstructionsExpand :
    (issuing true [Pseudo.drive .clearQC (inputs 0 1)]).pending = Pseudo.drive .clearQC (inputs 0 1) :: [] ∧
    (issuing false [Pseudo.drive (.saturatingNeg .signed .w16) (inputs 0 0x1234 0x8000)]).pending =
      Pseudo.drive (.saturatingNeg .signed .w16) (inputs 0 0x1234 0x8000) :: [] := ⟨rfl, rfl⟩
theorem witness_StepRunsDecodedCommand :
    (issuing false [inputs 0x00002004 0x80]).pending = inputs 0x00002004 0x80 :: [] ∧
    decode (inputs 0x00002004 0x80).cmd = .ok (.signExtend 8) := ⟨rfl, by decide⟩
theorem witness_IdleStepHoldsQC : (issuing true []).pending = [] := rfl
theorem witness_EveryCommandHasAnOutcome :
    (issuing true [inputs 0x00000185]).pending = inputs 0x00000185 :: [] := rfl
theorem witness_StepIsFunctionOfQCAndPorts :
    (issuing false [inputs 0x00000207 0x7F 1]).pending = inputs 0x00000207 0x7F 1 :: [] := rfl
/-- Ports that differ in `A[127:64]` only agree for `zeroExtend`, and in the high bits of a slot for `packLanes`. -/
theorem witness_UnnamedInputBitsIgnored :
    (inputs 0x00002003 0x10000000000000000).cmd = (inputs 0x00002003 0).cmd ∧
    readsAgree (inputs 0x00002003 0x10000000000000000) (inputs 0x00002003 0) (.zeroExtend 8) ∧
    readsAgree (inputs 0x00000006 0 0 [0x1AA]) (inputs 0x00000006 0 0 [0xAA]) (.packLanes .w8 .c32) ∧
    (issuing true [inputs 0x0F]).pending = ({ issuing true [inputs 0x0F] with out := none }).pending := by
  refine ⟨rfl, ?_, ?_, rfl⟩
  · simp only [readsAgree, agreeBelow]; decide
  · simp only [readsAgree]; decide
theorem witness_IssuingTwiceIsIssuingOnce : command false (inputs 0x00000207 0x7F 1) = completed true 0x7F true := by
  decide
theorem witness_RunShowsObservation : 1 < (issuing false [inputs 0x00000010, inputs 0x0000000F]).pending.length := by
  decide
/-- Program P1, steps 4 and 6: a saturating command, then `readQC`; and a state with other ports, another outcome, the
`QC` the first leaves and the second waiting. The third has no command after the first list. -/
theorem witness_RunsComposeThroughQC :
    (issuing false [inputs 0x228 0 0x8000, inputs 0x0F]).pending = [inputs 0x228 0 0x8000] ++ [inputs 0x0F] ∧
    ({ qc := true, ports := inputs 0x207 1 1, out := some (.fault (.reservedEncoding 0)),
       pending := [inputs 0x0F] } : State).pending = [inputs 0x0F] ∧
    true = (observe false [inputs 0x228 0 0x8000]).qc ∧ [inputs 0x0F] ≠ [] ∧ 0 < [inputs 0x0F].length ∧
    (issuing false [inputs 0x228 0 0x8000]).pending = [inputs 0x228 0 0x8000] ++ [] ∧
    (issuing true []).pending = [] := by
  decide
/-- After `readQC` with `QC = 1` the ports conform, and the step on the `mask #33` that waits answers a next state. -/
theorem witness_StepKeepsPortsConforming :
    Conforms { qc := true, ports := inputs 0x0F, out := some (.ok (resultOnly 1#128)), pending := [inputs 0x8401] } ∧
    step { qc := true, ports := inputs 0x0F, out := some (.ok (resultOnly 1#128)), pending := [inputs 0x8401] } = .next
      { qc := true, ports := inputs 0x8401, out := some (.fault (.invalidWidth 0x8401 (.count 33))), pending := [] } :=
  ⟨⟨.readQC, by decide, rfl, by decide, fun h => absurd rfl h, fun h => by cases h⟩, rfl⟩
theorem witness_FaultsExactly : (issuing false [inputs 0x0000A201]).pending = inputs 0x0000A201 :: [] := rfl
/-- The words of the four codes' clauses: reserved, refused, completing. -/
theorem witness_FaultsExactly_codes : reservedNumber 0x0000A201 ∧ decode 0x00008401#32 = .ok (.mask 33) ∧
    widthRefused (.mask 33) = true ∧ decode 0x00008001#32 = .ok (.mask 32) ∧ widthRefused (.mask 32) = false := by
  refine ⟨?_, by decide⟩
  simp [reservedNumber]
theorem witness_OutputConventions : completesWith .defaultNaN32 State.reset false (resultOnly 0x7FC00000#128) ∧
    saturates .defaultNaN32 = false ∧ ∀ w c, Instr.defaultNaN32 ≠ .splitLanes w c :=
  ⟨rfl, rfl, fun _ _ h => by cases h⟩
theorem witness_FaultChangesNothing : step (issuing true [inputs 0]) =
    .next { qc := true, ports := inputs 0, out := some (.fault (.reservedEncoding 0)), pending := [] } := rfl
theorem witness_NextCommandExecutesNormally : step (issuing true [inputs 0x00008401, inputs 0x0F]) = .next
    { qc := true, ports := inputs 0x00008401, out := some (.fault (.invalidWidth 0x00008401 (.count 33))),
      pending := [inputs 0x0F] } := rfl
theorem witness_MaskCommand : (127 : Nat) ≤ 127 ∧ 32 < 33 ∧ 32 ≤ 32 ∧ 0 ≤ 32 := by decide
theorem witness_MaskLongCommand : (64 : Nat) < 65 ∧ 64 ≤ 64 := by decide
theorem witness_ZeroExtendCommand : (64 : Nat) < 65 ∧ 64 ≤ 64 ∧ 0 ≤ 64 := by decide
theorem witness_SignExtendCommand : ((0 : Nat) = 0 ∨ 64 < 0) ∧ (65 = 0 ∨ 64 < 65) ∧ 1 ≤ 1 ∧ 64 ≤ 64 := by decide
theorem witness_ExtensionLaws : (1 : Nat) ≤ 64 ∧ 64 ≤ 64 := by decide
theorem witness_SplitLanesCommand : ContainerWidth.c32.bits < LaneWidth.w64.bits ∧
    LaneWidth.w64.bits ≤ ContainerWidth.c64.bits := by decide
theorem witness_PackLanesCommand : ContainerWidth.c32.bits < LaneWidth.w64.bits ∧
    LaneWidth.w8.bits ≤ ContainerWidth.c128.bits := by decide
theorem witness_SplitAndPackRoundTrip : LaneWidth.w32.bits ≤ ContainerWidth.c32.bits ∧
    ContainerWidth.c32.bits < LaneWidth.w64.bits := by decide
/-- Program P4, steps 3 and 4. -/
theorem witness_QAndDAlias :
    (inputs 0x00000165 0xCCCCCCCCDDDDDDDD11223344BBBBBBBB).a = qContainer 0xCCCCCCCCDDDDDDDD 0x11223344BBBBBBBB ∧
    (inputs 0x00000166 0 0 [0x11223344BBBBBBBB, 0xCCCCCCCCDDDDDDDD]).lin.getD 0 0#64 = 0x11223344BBBBBBBB ∧
    (inputs 0x00000166 0 0 [0x11223344BBBBBBBB, 0xCCCCCCCCDDDDDDDD]).lin.getD 1 0#64 = 0xCCCCCCCCDDDDDDDD := by
  decide
theorem witness_BytesAndMixedWidthLanes : LaneWidth.w16.bits = 2 * LaneWidth.w8.bits ∧
    LaneWidth.w16.bits ≤ ContainerWidth.c32.bits := by decide
/-- `0x7F + 0x01` at s8 (outside the range), and `0x05 − 0x09` at s8 (inside it). -/
theorem witness_SaturationFlagExactly :
    (128 : Int) = fieldValue .signed LaneWidth.w8.bits (onPorts (inputs 0x207 0x7F 0x01)).ports.a +
      fieldValue .signed LaneWidth.w8.bits (onPorts (inputs 0x207 0x7F 0x01)).ports.b ∧
    (-4 : Int) = fieldValue .signed LaneWidth.w8.bits (onPorts (inputs 0x208 0x05 0x09)).ports.a -
      fieldValue .signed LaneWidth.w8.bits (onPorts (inputs 0x208 0x05 0x09)).ports.b := by decide
theorem witness_SaturatedResultIsBounded :
    (-1 : Int) = fieldValue .unsigned LaneWidth.w64.bits (onPorts (inputs 0x68 0 1)).ports.a -
      fieldValue .unsigned LaneWidth.w64.bits (onPorts (inputs 0x68 0 1)).ports.b := by decide
/-- Operands for each of the four cases: `s8` 0 and min, −1 and min, min and min, and `u8` max and max. -/
theorem witness_ExactBoundaryCases :
    (fieldValue .signed LaneWidth.w8.bits (onPorts (inputs 0x208 0x00 0x80)).ports.a = 0 ∧
      fieldValue .signed LaneWidth.w8.bits (onPorts (inputs 0x208 0x00 0x80)).ports.b = lowest .signed .w8) ∧
    (fieldValue .signed LaneWidth.w8.bits (onPorts (inputs 0x208 0xFF 0x80)).ports.a = -1 ∧
      fieldValue .signed LaneWidth.w8.bits (onPorts (inputs 0x208 0xFF 0x80)).ports.b = lowest .signed .w8) ∧
    (fieldValue .signed LaneWidth.w8.bits (onPorts (inputs 0x207 0x80 0x80)).ports.a = lowest .signed .w8 ∧
      fieldValue .signed LaneWidth.w8.bits (onPorts (inputs 0x207 0x80 0x80)).ports.b = lowest .signed .w8) ∧
    (fieldValue .unsigned LaneWidth.w8.bits (onPorts (inputs 0x007 0xFF 0xFF)).ports.a = highest .unsigned .w8 ∧
      fieldValue .unsigned LaneWidth.w8.bits (onPorts (inputs 0x007 0xFF 0xFF)).ports.b = highest .unsigned .w8) := by
  decide
theorem witness_ReinterpretationIsExact : (inputs 0x0000000A 0x7F800001).a = (0x7F800001#32).setWidth 128 ∧
    (inputs 0x0000000C 0x7FF0000000000001).a = (0x7FF0000000000001#64).setWidth 128 := by decide
/-- A pattern for each row of R162: zero, subnormal, normal (both ends), infinity, quiet and signalling NaN. -/
theorem witness_Binary32ReadingTable :
    0x80000000 / 2 ^ 23 % 256 = 0 ∧ 0x80000000 % 2 ^ 23 = 0 ∧
    0x007FFFFF / 2 ^ 23 % 256 = 0 ∧ 0x007FFFFF % 2 ^ 23 ≠ 0 ∧
    0x00800000 / 2 ^ 23 % 256 = 1 ∧ 0x7F7FFFFF / 2 ^ 23 % 256 = 254 ∧
    0x7F800000 / 2 ^ 23 % 256 = 255 ∧ 0x7F800000 % 2 ^ 23 = 0 ∧
    0x7FC00000 / 2 ^ 23 % 256 = 255 ∧ 0x7FC00000 % 2 ^ 23 ≠ 0 ∧ (0x7FC00000#32).getLsbD 22 = true ∧
    0x7F800001 / 2 ^ 23 % 256 = 255 ∧ 0x7F800001 % 2 ^ 23 ≠ 0 ∧ (0x7F800001#32).getLsbD 22 = false := by decide
/-- The same for R164. -/
theorem witness_Binary64ReadingTable :
    0x8000000000000000 / 2 ^ 52 % 2048 = 0 ∧ 0x8000000000000000 % 2 ^ 52 = 0 ∧
    0x0000000000000001 / 2 ^ 52 % 2048 = 0 ∧ 0x0000000000000001 % 2 ^ 52 ≠ 0 ∧
    0x0010000000000000 / 2 ^ 52 % 2048 = 1 ∧ 0x7FEFFFFFFFFFFFFF / 2 ^ 52 % 2048 = 2046 ∧
    0xFFF0000000000000 / 2 ^ 52 % 2048 = 2047 ∧ 0xFFF0000000000000 % 2 ^ 52 = 0 ∧
    0x7FF8000000000000 / 2 ^ 52 % 2048 = 2047 ∧ (0x7FF8000000000000#64).getLsbD 51 = true ∧
    0x7FF0000000000001 / 2 ^ 52 % 2048 = 2047 ∧ 0x7FF0000000000001 % 2 ^ 52 ≠ 0 ∧
    (0x7FF0000000000001#64).getLsbD 51 = false := by decide
theorem witness_ReadingsDetermineThePattern : readBinary32 0x7FC00000 = readBinary32 0x7FC00000 := rfl
theorem witness_QCReadersAndWriters : saturates (.saturatingAdd .w8 .signed) = true ∧ saturates .readQC = false ∧
    Instr.readQC ≠ .writeQC ∧ saturates .writeQC = false := by decide
/-- Program P1, steps 4 to 6, and a run from `QC = 1` with no `writeQC` in it. -/
theorem witness_QCIsSticky : saturates (.saturatingSub .w16 .signed) = true ∧ (issuing true [inputs 0x0F]).qc = true ∧
    (∀ p ∈ (issuing true [inputs 0x0F]).pending.take 1, decode p.cmd ≠ .ok .writeQC) ∧
    runSteps 1 (issuing true [inputs 0x0F]) = .next
      { qc := true, ports := inputs 0x0F, out := some (.ok (resultOnly 1#128)), pending := [] } := by
  refine ⟨by decide, rfl, ?_, rfl⟩
  decide
theorem witness_FinalQCIsOrOfSaturations :
    ∀ p ∈ [inputs 0x00000228 0 0x8000, inputs 0x00000227 1 1], decode p.cmd ≠ .ok .writeQC := by
  decide

end Sys2Proof.Tests
end

section
/-! PROOFS. What a command answers, as one function of `QC` and the input ports, and the statements of
spec/10_state.md that follow from it. `exec` is unfolded in `exec_of_refused` and `exec_of_accepted` only. -/

namespace Sys2Proof.Machine

/-! ## The function a command is (R22) -/

/-- The outputs a saturating command delivers for an exact result `t` (R142, R143). -/
def saturatedOutputs (g : Signedness) (w : LaneWidth) (t : Int) : Outputs :=
  { r := driveR (enc w.bits (saturate g w t)), lout := zeroSlots, sat := satFlag g w t }

/-- The outputs a command delivers when it does not refuse its widths; `exec_of_accepted` ties it to `exec`. -/
def outputsOf (i : Instr) (qc : Bool) (p : Ports) : Outputs :=
  match i with
  | .mask n => resultOnly (driveR ((ones n).setWidth 32))
  | .maskLong n => resultOnly (driveR ((ones n).setWidth 64))
  | .zeroExtend n => resultOnly (driveR ((lowBits n p.a).setWidth 64))
  | .signExtend n => resultOnly (driveR (sext64 (lowBits n p.a)))
  | .splitLanes w c => { r := 0#128, lout := splitSlots w c p.a, sat := false }
  | .packLanes w c => resultOnly (driveR (packSlots w c p.lin))
  | .saturatingAdd w g => saturatedOutputs g w (operand g w p.a + operand g w p.b)
  | .saturatingSub w g => saturatedOutputs g w (operand g w p.a - operand g w p.b)
  | .bitsOfFloat32 => resultOnly (driveR (lowBits 32 p.a))
  | .float32OfBits => resultOnly (driveR (lowBits 32 p.a))
  | .bitsOfDouble => resultOnly (driveR (lowBits 64 p.a))
  | .doubleOfBits => resultOnly (driveR (lowBits 64 p.a))
  | .defaultNaN32 => resultOnly (driveR Config.defaultNaN32)
  | .defaultNaN64 => resultOnly (driveR Config.defaultNaN64)
  | .readQC => resultOnly (driveR (BitVec.ofBool qc))
  | .writeQC => resultOnly 0#128

/-- The `QC` a command leaves when it does not refuse its widths: R21's list of the writers. -/
def qcAfter (i : Instr) (qc : Bool) (p : Ports) : Bool :=
  if saturates i then qc || (outputsOf i qc p).sat
  else if i = .writeQC then p.a.getLsbD 0
  else qc

theorem qcAfter_of_saturates {i : Instr} (h : saturates i = true) (qc : Bool) (p : Ports) :
    qcAfter i qc p = (qc || (outputsOf i qc p).sat) := by
  simp [qcAfter, h]

@[simp] theorem qcAfter_writeQC (qc : Bool) (p : Ports) : qcAfter .writeQC qc p = p.a.getLsbD 0 := rfl

theorem qcAfter_of_not_writer {i : Instr} (hs : saturates i = false) (hw : i ≠ .writeQC) (qc : Bool) (p : Ports) :
    qcAfter i qc p = qc := by
  simp [qcAfter, hs, hw]

/-- Only `writeQC` can clear `QC` (R21). -/
theorem qcAfter_of_set {i : Instr} (hw : i ≠ .writeQC) (p : Ports) : qcAfter i true p = true := by
  cases hs : saturates i
  · exact qcAfter_of_not_writer hs hw true p
  · simp [qcAfter_of_saturates hs]

/-! ## `exec` is that function -/

/-- R202's column for the lane commands is R120's `W > C`. -/
theorem lanesFit_eq_not_refused (w : LaneWidth) (c : ContainerWidth) :
    lanesFit w c = !decide (w = .w64 ∧ c = .c32) := by
  cases w <;> cases c <;> rfl

/-- A command that refuses its widths has values to report (R200). -/
theorem offendingValues_of_refused {i : Instr} (h : widthRefused i = true) :
    ∃ info, offendingValues i = some info := by
  cases i with
  | mask | maskLong | zeroExtend | signExtend | splitLanes | packLanes => exact ⟨_, rfl⟩
  | _ => cases h

theorem saturates_of_refused {i : Instr} (h : widthRefused i = true) : saturates i = false := by
  cases i with
  | saturatingAdd | saturatingSub => cases h
  | _ => rfl

/-- A command that refuses its widths reports them and keeps `QC` (R201, R202). -/
theorem exec_of_refused {i : Instr} {info : WidthInfo} (h : widthRefused i = true)
    (hinfo : offendingValues i = some info) (s : State) :
    exec i s = answers s s.qc (.fault (.invalidWidth s.ports.cmd info)) := by
  cases i with
  | mask n | maskLong n | zeroExtend n | signExtend n =>
    cases hinfo
    exact if_pos (of_decide_eq_true h)
  | splitLanes w c | packLanes w c =>
    cases hinfo
    have hfit : ¬ lanesFit w c = true := by
      rw [lanesFit_eq_not_refused, show decide (w = .w64 ∧ c = .c32) = true from h]; decide
    exact if_neg hfit
  | _ => cases h

/-- A command that does not refuse its widths completes with `outputsOf` and leaves `qcAfter` (R22). -/
theorem exec_of_accepted {i : Instr} (h : widthRefused i = false) (s : State) :
    exec i s = answers s (qcAfter i s.qc s.ports) (.ok (outputsOf i s.qc s.ports)) := by
  cases i with
  | mask n | maskLong n | zeroExtend n | signExtend n => exact if_neg (of_decide_eq_false h)
  | splitLanes w c | packLanes w c =>
    have hfit : lanesFit w c = true := by
      rw [lanesFit_eq_not_refused, show decide (w = .w64 ∧ c = .c32) = false from h]; rfl
    exact if_pos hfit
  | _ => rfl

/-! ## What the outputs are where a rule names nothing (R25) -/

theorem toNat_driveR_lt {n : Nat} (v : BitVec n) : (driveR v).toNat < 2 ^ n :=
  calc (driveR v).toNat = v.toNat % 2 ^ 128 := BitVec.toNat_setWidth 128 v
    _ ≤ v.toNat := Nat.mod_le _ _
    _ < 2 ^ n := v.isLt

/-- The lanes of a pack stay inside the container. -/
theorem toNat_driveR_packSlots_lt (w : LaneWidth) (c : ContainerWidth) (lin : Slots) :
    (driveR (packSlots w c lin)).toNat < 2 ^ c.bits :=
  Nat.lt_of_lt_of_le (toNat_driveR_lt _) (Nat.pow_le_pow_right (by decide) (Nat.mul_div_le c.bits w.bits))

theorem outputsOf_r_lt (i : Instr) (qc : Bool) (p : Ports) :
    (outputsOf i qc p).r.toNat < 2 ^ resultBits i := by
  cases i with
  | splitLanes | writeQC => exact Nat.zero_lt_one
  | packLanes w c => exact toNat_driveR_packSlots_lt w c p.lin
  | _ => exact toNat_driveR_lt _

theorem outputsOf_sat_of_not_saturates {i : Instr} (h : saturates i = false) (qc : Bool) (p : Ports) :
    (outputsOf i qc p).sat = false := by
  cases i with
  | saturatingAdd | saturatingSub => cases h
  | _ => rfl

theorem outputsOf_lout_of_not_split {i : Instr} (h : ∀ w c, i ≠ .splitLanes w c) (qc : Bool) (p : Ports) :
    (outputsOf i qc p).lout = zeroSlots := by
  cases i with
  | splitLanes w c => exact absurd rfl (h w c)
  | _ => rfl

theorem outputsOf_conform {i : Instr} (h : widthRefused i = false) (qc : Bool) (p : Ports) :
    outputsConform (qcAfter i qc p) i (outputsOf i qc p) := by
  refine ⟨h, outputsOf_r_lt i qc p, fun hlout => ?_, fun hsat => ?_⟩
  · by_contra hsplit
    exact hlout (outputsOf_lout_of_not_split (fun w c hi => hsplit ⟨w, c, hi⟩) qc p)
  · have hs : saturates i = true := by
      by_contra hs
      simp [outputsOf_sat_of_not_saturates (Bool.eq_false_iff.mpr hs)] at hsat
    exact ⟨hs, by simp [qcAfter_of_saturates hs, hsat]⟩

/-! ## What the outputs depend on (R23, R44) -/

theorem agreeBelow_mono {m n : Nat} {v v' : Port} (hmn : m ≤ n) (h : agreeBelow n v v') : agreeBelow m v v' :=
  fun j hj => h j (Nat.lt_of_lt_of_le hj hmn)

theorem lowBits_of_agreeBelow {n : Nat} {v v' : Port} (h : agreeBelow n v v') : lowBits n v = lowBits n v' := by
  apply BitVec.eq_of_getLsbD_eq
  intro j hj
  rw [getLsbD_lowBits, getLsbD_lowBits, h j hj]

theorem operand_of_agreeBelow {w : LaneWidth} {v v' : Port} (h : agreeBelow w.bits v v') (g : Signedness) :
    operand g w v = operand g w v' := by
  cases g <;> simp only [operand, lowBits_of_agreeBelow h]

/-- A lane below the lane count lies inside the container. -/
theorem laneOf_of_agreeBelow {w : LaneWidth} {c : ContainerWidth} {v v' : Port} (h : agreeBelow c.bits v v')
    {i : Nat} (hi : i < laneCount w c) : laneOf w.bits v i = laneOf w.bits v' i := by
  apply BitVec.eq_of_getLsbD_eq
  intro j hj
  have hlane : (i + 1) * w.bits ≤ c.bits := (Nat.le_div_iff_mul_le (laneWidth_bits_pos w)).mp hi
  have hbit : i * w.bits + j < c.bits := by rw [Nat.succ_mul] at hlane; omega
  rw [getLsbD_laneOf, getLsbD_laneOf, h _ hbit]

theorem splitSlots_of_agreeBelow {c : ContainerWidth} {v v' : Port} (h : agreeBelow c.bits v v') (w : LaneWidth) :
    splitSlots w c v = splitSlots w c v' := by
  unfold splitSlots
  congr 1
  funext i
  split
  · rw [laneOf_of_agreeBelow h (by assumption)]
  · rfl

theorem concatLanes_congr {w : Nat} {lane lane' : Nat → BitVec w} :
    ∀ {k : Nat}, (∀ i, i < k → lane i = lane' i) → concatLanes w lane k = concatLanes w lane' k
  | 0, _ => rfl
  | k + 1, h => by
    rw [concatLanes, concatLanes, h k (Nat.lt_succ_self k),
      concatLanes_congr fun i hi => h i (Nat.lt_succ_of_lt hi)]

theorem packSlots_of_readsAgree {w : LaneWidth} {c : ContainerWidth} {p p' : Ports}
    (h : readsAgree p p' (.packLanes w c)) : packSlots w c p.lin = packSlots w c p'.lin := by
  apply concatLanes_congr
  intro i hi
  apply BitVec.eq_of_getLsbD_eq
  intro j hj
  rw [getLsbD_slotBits, getLsbD_slotBits, h i hi j hj]

/-- The outputs are decided by `QC` and the bits that R44 says the command reads. -/
theorem outputsOf_of_readsAgree {i : Instr} {p p' : Ports} (hacc : widthRefused i = false)
    (h : readsAgree p p' i) (qc : Bool) : outputsOf i qc p = outputsOf i qc p' := by
  cases i with
  | mask | maskLong | defaultNaN32 | defaultNaN64 | readQC | writeQC => rfl
  | zeroExtend n =>
    have hn : n ≤ 64 := Nat.le_of_not_gt (of_decide_eq_false hacc)
    simp only [outputsOf, lowBits_of_agreeBelow (agreeBelow_mono hn h)]
  | signExtend n =>
    have hn : n ≤ 64 := Nat.le_of_not_gt fun hgt => of_decide_eq_false hacc (.inr hgt)
    simp only [outputsOf, lowBits_of_agreeBelow (agreeBelow_mono hn h)]
  | splitLanes w c => simp only [outputsOf, splitSlots_of_agreeBelow h w]
  | packLanes w c => simp only [outputsOf, packSlots_of_readsAgree h]
  | saturatingAdd w g | saturatingSub w g =>
    simp only [outputsOf, operand_of_agreeBelow h.1 g, operand_of_agreeBelow h.2 g]
  | bitsOfFloat32 | float32OfBits | bitsOfDouble | doubleOfBits => simp only [outputsOf, lowBits_of_agreeBelow h]

theorem qcAfter_of_readsAgree {i : Instr} {p p' : Ports} (hacc : widthRefused i = false)
    (h : readsAgree p p' i) (qc : Bool) : qcAfter i qc p = qcAfter i qc p' := by
  by_cases hw : i = .writeQC
  · subst hw
    exact h 0 Nat.zero_lt_one
  · simp only [qcAfter, hw, if_false, outputsOf_of_readsAgree hacc h]

/-- Only `readQC` reads `QC` (R21). -/
theorem outputsOf_ignores_qc {i : Instr} (h : i ≠ .readQC) (qc qc' : Bool) (p : Ports) :
    outputsOf i qc p = outputsOf i qc' p := by
  cases i with
  | readQC => exact absurd rfl h
  | _ => rfl

/-- `readQC` delivers `QC` on `R` (R190). -/
theorem toNat_outputsOf_readQC (qc : Bool) (p : Ports) : (outputsOf .readQC qc p).r.toNat = qc.toNat := by
  cases qc <;> rfl

/-! ## The step -/

theorem step_of_nil {s : State} (h : s.pending = []) : step s = .next (idle s) := by
  simp only [step, nextCommand_of_nil h]

/-- The step on a word that decodes (R22, R69). -/
theorem step_of_decode {s : State} {p : Ports} {rest : List Ports} {i : Instr} (h : s.pending = p :: rest)
    (hd : decode p.cmd = .ok i) : step s = exec i { qc := s.qc, ports := p, out := none, pending := rest } := by
  simp only [step, nextCommand_of_cons h, hd]

/-- The step on a reserved word (R69, R70). -/
theorem step_of_reserved {s : State} {p : Ports} {rest : List Ports} {why : Reserved} (h : s.pending = p :: rest)
    (hd : decode p.cmd = .error why) :
    step s = .next { qc := s.qc, ports := p, out := some (.fault (.reservedEncoding p.cmd)), pending := rest } := by
  simp only [step, nextCommand_of_cons h, hd]
  rfl

/-- The step on a command that refuses its widths. -/
theorem step_of_refused {s : State} {p : Ports} {rest : List Ports} {i : Instr} {info : WidthInfo}
    (h : s.pending = p :: rest) (hd : decode p.cmd = .ok i) (hr : widthRefused i = true)
    (hinfo : offendingValues i = some info) :
    step s = .next { qc := s.qc, ports := p, out := some (.fault (.invalidWidth p.cmd info)), pending := rest } :=
  (step_of_decode h hd).trans (exec_of_refused hr hinfo _)

/-- The step on a command that completes. -/
theorem step_of_accepted {s : State} {p : Ports} {rest : List Ports} {i : Instr}
    (h : s.pending = p :: rest) (hd : decode p.cmd = .ok i) (hr : widthRefused i = false) :
    step s = .next { qc := qcAfter i s.qc p, ports := p, out := some (.ok (outputsOf i s.qc p)), pending := rest } :=
  (step_of_decode h hd).trans (exec_of_accepted hr _)

/-- One `QC` and one outcome belong to a value of `QC` and the input ports: every state that holds that `QC` and
has that command waiting steps to them, and a fault keeps `QC` (R20, R22). -/
theorem step_determined (qc : Bool) (p : Ports) :
    ∃ qc' o, ((∃ x, o = .ok x) ∨ ∃ f, o = .fault f ∧ qc' = qc) ∧
      ∀ (s : State) (rest : List Ports), s.qc = qc → s.pending = p :: rest →
        step s = .next { qc := qc', ports := p, out := some o, pending := rest } := by
  cases hd : decode p.cmd with
  | error why =>
    refine ⟨qc, .fault (.reservedEncoding p.cmd), .inr ⟨_, rfl, rfl⟩, ?_⟩
    rintro s rest rfl h
    exact step_of_reserved h hd
  | ok i =>
    cases hr : widthRefused i with
    | true =>
      obtain ⟨info, hinfo⟩ := offendingValues_of_refused hr
      refine ⟨qc, .fault (.invalidWidth p.cmd info), .inr ⟨_, rfl, rfl⟩, ?_⟩
      rintro s rest rfl h
      exact step_of_refused h hd hr hinfo
    | false =>
      refine ⟨qcAfter i qc p, .ok (outputsOf i qc p), .inl ⟨_, rfl⟩, ?_⟩
      rintro s rest rfl h
      exact step_of_accepted h hd hr

/-! ## Settled statements -/

/-- Settles O21, by the three kinds of word a step can find on `CMD`; a step with none waiting shows no output. -/
theorem stepKeepsPortsConforming : Obligations.StepKeepsPortsConforming := by
  unfold Obligations.StepKeepsPortsConforming
  intro s t _ ht
  cases hp : s.pending with
  | nil =>
    cases (step_of_nil hp).symm.trans ht
    trivial
  | cons p rest =>
    cases hd : decode p.cmd with
    | error why =>
      cases (step_of_reserved hp hd).symm.trans ht
      exact ⟨rfl, why, hd⟩
    | ok i =>
      cases hr : widthRefused i with
      | true =>
        obtain ⟨info, hinfo⟩ := offendingValues_of_refused hr
        cases (step_of_refused hp hd hr hinfo).symm.trans ht
        exact ⟨rfl, i, hd, hr, hinfo⟩
      | false =>
        cases (step_of_accepted hp hd hr).symm.trans ht
        exact ⟨i, hd, outputsOf_conform hr s.qc p⟩

/-- Settles O15, from `step_determined`. -/
theorem everyCommandHasAnOutcome : Obligations.EveryCommandHasAnOutcome := by
  unfold Obligations.EveryCommandHasAnOutcome
  intro s p rest h
  obtain ⟨qc, o, hkind, hstep⟩ := step_determined s.qc p
  exact ⟨qc, o, hstep s rest rfl h, hkind⟩

/-- Settles O16: `step_determined` gives the state itself and the one-command state of `command` the same step. -/
theorem stepIsFunctionOfQCAndPorts : Obligations.StepIsFunctionOfQCAndPorts := by
  unfold Obligations.StepIsFunctionOfQCAndPorts
  intro s p rest h
  obtain ⟨qc, o, -, hstep⟩ := step_determined s.qc p
  refine ⟨qc, o, ?_, hstep s rest rfl h⟩
  simp only [command, hstep { qc := s.qc, ports := idlePorts, out := none, pending := [p] } [] rfl rfl,
    Option.map_some]

/-- Settles O17: a refusal reads `CMD` alone, and `outputsOf` and `qcAfter` read the bits of R44. -/
theorem unnamedInputBitsIgnored : Obligations.UnnamedInputBitsIgnored := by
  unfold Obligations.UnnamedInputBitsIgnored
  constructor
  · intro i s p p' hcmd hreads
    cases hr : widthRefused i with
    | true =>
      obtain ⟨info, hinfo⟩ := offendingValues_of_refused hr
      refine ⟨s.qc, _, exec_of_refused hr hinfo _, ?_⟩
      rw [hcmd]
      exact exec_of_refused hr hinfo _
    | false =>
      refine ⟨_, _, exec_of_accepted hr _, ?_⟩
      rw [outputsOf_of_readsAgree hr hreads, qcAfter_of_readsAgree hr hreads]
      exact exec_of_accepted hr _
  · intro s t p rest hqc hs ht
    obtain ⟨qc, o, -, hstep⟩ := step_determined t.qc p
    rw [hstep s rest hqc hs, hstep t rest rfl ht]

/-- Settles O25: a command that completes does not refuse its widths, so its outputs are `outputsOf`. -/
theorem outputConventions : Obligations.OutputConventions := by
  unfold Obligations.OutputConventions
  intro i s qc o hcompletes
  have ho : o = outputsOf i s.qc s.ports := by
    cases hr : widthRefused i with
    | true =>
      obtain ⟨info, hinfo⟩ := offendingValues_of_refused hr
      cases (exec_of_refused hr hinfo s).symm.trans hcompletes
    | false =>
      cases (exec_of_accepted hr s).symm.trans hcompletes
      rfl
  subst ho
  exact ⟨outputsOf_r_lt i s.qc s.ports, fun h => outputsOf_sat_of_not_saturates h _ _,
    fun h => outputsOf_lout_of_not_split h _ _, rfl⟩

/-- Settles O52: a refusal keeps `QC` and is no access to it; otherwise `qcAfter` says who writes `QC`, and
`outputsOf` who reads it. -/
theorem qcReadersAndWriters : Obligations.QCReadersAndWriters := by
  unfold Obligations.QCReadersAndWriters
  refine ⟨rfl, fun i s => ?_⟩
  cases hr : widthRefused i with
  | true =>
    obtain ⟨info, hinfo⟩ := offendingValues_of_refused hr
    have hs := saturates_of_refused hr
    refine ⟨_, _, exec_of_refused hr hinfo s, rfl, fun h => ?_, ?_, fun _ _ => rfl, fun hset hclear => ?_, ?_,
      fun _ b => ⟨_, exec_of_refused hr hinfo _, rfl⟩⟩
    · cases hs.symm.trans h
    · rintro rfl; cases hr
    · cases hset.symm.trans hclear
    · rintro rfl; cases hr
  | false =>
    refine ⟨_, _, exec_of_accepted hr s, rfl, fun hs => qcAfter_of_saturates hs _ _, ?_,
      fun hs hw => qcAfter_of_not_writer hs hw _ _, fun hset hclear => ?_, ?_,
      fun h b => ⟨_, exec_of_accepted hr _, ?_⟩⟩
    · rintro rfl; rfl
    · by_contra hw
      have hkept : qcAfter i s.qc s.ports = true := hset ▸ qcAfter_of_set hw s.ports
      cases hkept.symm.trans hclear
    · rintro rfl; exact ⟨_, rfl, toNat_outputsOf_readQC s.qc s.ports⟩
    · exact congrArg (fun x => some (CommandOutcome.ok x)) (outputsOf_ignores_qc h b s.qc s.ports)

/-- Settles O13. -/
theorem stepRunsDecodedCommand : Obligations.StepRunsDecodedCommand := by
  unfold Obligations.StepRunsDecodedCommand
  intro s p rest i h hd
  exact step_of_decode h hd

end Sys2Proof.Machine
end

section
/-! PROOFS. Stored words, repeated commands, runs in parts, and lanes of other widths: the statements of
spec/20_memory.md. -/

namespace Sys2Proof.Machine

/-! ## Stored words (R42) -/

theorem getElem?_bytesOfWord (cmd : Word) {k : Nat} (hk : k < 4) :
    (bytesOfWord cmd)[k]? = some (cmd.extractLsb' (8 * k) 8) := by
  match k, hk with
  | 0, _ | 1, _ | 2, _ | 3, _ => rfl

/-- A field of `w` bits from bit `i * w` up is a digit of the number in base `2 ^ w`. -/
theorem toNat_extractLsb'_mul {n : Nat} (v : BitVec n) (i w : Nat) :
    (v.extractLsb' (i * w) w).toNat = v.toNat / (2 ^ w) ^ i % 2 ^ w := by
  rw [BitVec.extractLsb'_toNat, Nat.shiftRight_eq_div_pow, Nat.mul_comm, Nat.pow_mul]

theorem wordOfBytes_bytesOfWord (cmd : Word) :
    wordOfBytes (cmd.extractLsb' 0 8) (cmd.extractLsb' 8 8) (cmd.extractLsb' 16 8) (cmd.extractLsb' 24 8) = cmd := by
  have join (lo n m : Nat) : cmd.extractLsb' (lo + n) m ++ cmd.extractLsb' lo n = cmd.extractLsb' lo (m + n) :=
    BitVec.extractLsb'_append_extractLsb'_eq_extractLsb' rfl
  rw [wordOfBytes, join 16 8 8, join 8 8 16, join 0 8 24, BitVec.extractLsb'_eq_self]

/-- The bytes of one word read back as that word, and the listing after them as before. -/
theorem wordsOfBytes_bytesOfWord_append (cmd : Word) (rest : List Byte) :
    wordsOfBytes (bytesOfWord cmd ++ rest) = (wordsOfBytes rest).map (cmd :: ·) := by
  simp only [bytesOfWord, List.cons_append, List.nil_append, wordsOfBytes, wordOfBytes_bytesOfWord]

theorem wordsOfBytes_bytesOfWords (cmds : List Word) : wordsOfBytes (bytesOfWords cmds) = some cmds := by
  induction cmds with
  | nil => rfl
  | cons cmd rest ih =>
    calc wordsOfBytes (bytesOfWords (cmd :: rest))
        = (wordsOfBytes (bytesOfWords rest)).map (cmd :: ·) := wordsOfBytes_bytesOfWord_append cmd _
      _ = some (cmd :: rest) := by rw [ih]; rfl

/-! ## A command issued again (R44) -/

/-- `command` shows what a step of its one-command state shows. -/
theorem command_of_step {qc : Bool} {p : Ports} {t : State} {o : CommandOutcome}
    (h : step { qc := qc, ports := idlePorts, out := none, pending := [p] } = .next t) (ho : t.out = some o) :
    command qc p = some (t.qc, o) := by
  simp only [command, h, ho, Option.map_some]

theorem command_of_reserved {p : Ports} {why : Reserved} (hd : decode p.cmd = .error why) (qc : Bool) :
    command qc p = some (qc, .fault (.reservedEncoding p.cmd)) :=
  command_of_step (step_of_reserved rfl hd) rfl

theorem command_of_refused {p : Ports} {i : Instr} {info : WidthInfo} (hd : decode p.cmd = .ok i)
    (hr : widthRefused i = true) (hinfo : offendingValues i = some info) (qc : Bool) :
    command qc p = some (qc, .fault (.invalidWidth p.cmd info)) :=
  command_of_step (step_of_refused rfl hd hr hinfo) rfl

theorem command_of_accepted {p : Ports} {i : Instr} (hd : decode p.cmd = .ok i) (hr : widthRefused i = false)
    (qc : Bool) : command qc p = some (qcAfter i qc p, .ok (outputsOf i qc p)) :=
  command_of_step (step_of_accepted rfl hd hr) rfl

/-- The outputs do not see the `QC` their own command left: `readQC`, the one reader, writes none (R21). -/
theorem outputsOf_qcAfter (i : Instr) (qc : Bool) (p : Ports) :
    outputsOf i (qcAfter i qc p) p = outputsOf i qc p := by
  by_cases h : i = .readQC
  · subst h; rfl
  · exact outputsOf_ignores_qc h _ _ p

/-- `QC OR SAT`, and `A[0]`, written a second time change nothing (R145, R191). -/
theorem qcAfter_qcAfter (i : Instr) (qc : Bool) (p : Ports) :
    qcAfter i (qcAfter i qc p) p = qcAfter i qc p := by
  cases hs : saturates i with
  | true =>
    rw [qcAfter_of_saturates hs (qcAfter i qc p), outputsOf_qcAfter, qcAfter_of_saturates hs, Bool.or_assoc,
      Bool.or_self]
  | false =>
    by_cases hw : i = .writeQC
    · subst hw; rfl
    · exact qcAfter_of_not_writer hs hw _ p

/-! ## Runs (R47, R236) -/

theorem runSteps_of_step {s t : State} (h : step s = .next t) (k : Nat) : runSteps (k + 1) s = runSteps k t := by
  simp only [runSteps, h]

theorem runSteps_add {m : Nat} {s t : State} (h : runSteps m s = .next t) (n : Nat) :
    runSteps (m + n) s = runSteps n t := by
  induction m generalizing s with
  | zero => cases h; rw [Nat.zero_add]
  | succ m ih =>
    rw [Nat.succ_add]
    cases hs : step s with
    | next u =>
      rw [runSteps_of_step hs] at h ⊢
      exact ih h
    | fault r => simp [runSteps, hs] at h
    | refused r => simp [runSteps, hs] at h

/-- With no command waiting, every step is the same idle step (log entry 5). -/
theorem runSteps_of_nil {s : State} (h : s.pending = []) (k : Nat) : runSteps (k + 1) s = .next (idle s) := by
  induction k generalizing s with
  | zero => exact runSteps_of_step (step_of_nil h) 0
  | succ k ih => rw [runSteps_of_step (step_of_nil h)]; exact ih (s := idle s) h

theorem observe_of_command {qc qc' : Bool} {p : Ports} {o : CommandOutcome} (h : command qc p = some (qc', o))
    (rest : List Ports) : observe qc (p :: rest) =
      { outcomes := o :: (observe qc' rest).outcomes, qc := (observe qc' rest).qc } := by
  simp only [observe, h]

/-- Every command of a run has an outcome (R22). -/
theorem length_outcomes_observe (qc : Bool) (ps : List Ports) : (observe qc ps).outcomes.length = ps.length := by
  induction ps generalizing qc with
  | nil => rfl
  | cons p rest ih =>
    obtain ⟨qc', o, hcmd, -⟩ :=
      stepIsFunctionOfQCAndPorts { qc := qc, ports := idlePorts, out := none, pending := [p] } p [] rfl
    simp only [observe_of_command hcmd, List.length_cons, ih qc']

/-- Stepping through the first commands leaves the others waiting and the `QC` of the observed run. -/
theorem runSteps_through_append {s : State} {ps qs : List Ports} (h : s.pending = ps ++ qs) :
    ∃ t, runSteps ps.length s = .next t ∧ t.pending = qs ∧ t.qc = (observe s.qc ps).qc := by
  induction ps generalizing s with
  | nil => exact ⟨s, rfl, h, rfl⟩
  | cons p rest ih =>
    obtain ⟨qc, o, hcmd, hstep⟩ := stepIsFunctionOfQCAndPorts s p (rest ++ qs) h
    rw [List.length_cons, runSteps_of_step hstep, observe_of_command hcmd]
    exact ih rfl

/-- After `k + 1` steps a state shows the outcome of the observed run at place `k`, none beyond its end. -/
theorem runSteps_shows_outcome (s : State) (k : Nat) :
    ∃ t, runSteps (k + 1) s = .next t ∧ t.out = (observe s.qc s.pending).outcomes[k]? := by
  induction k generalizing s with
  | zero =>
    cases hp : s.pending with
    | nil => exact ⟨idle s, runSteps_of_nil hp 0, rfl⟩
    | cons p rest =>
      obtain ⟨qc, o, hcmd, hstep⟩ := stepIsFunctionOfQCAndPorts s p rest hp
      rw [observe_of_command hcmd]
      exact ⟨_, runSteps_of_step hstep 0, rfl⟩
  | succ k ih =>
    cases hp : s.pending with
    | nil => exact ⟨idle s, runSteps_of_nil hp (k + 1), rfl⟩
    | cons p rest =>
      obtain ⟨qc, o, hcmd, hstep⟩ := stepIsFunctionOfQCAndPorts s p rest hp
      rw [observe_of_command hcmd, runSteps_of_step hstep]
      exact ih _

/-- The steps that follow depend on `QC` and the waiting commands alone; with none waiting the ports stay (R20). -/
theorem runSteps_determined {s u : State} (hqc : s.qc = u.qc) (hp : s.pending = u.pending) (k : Nat) :
    ∃ t v, runSteps (k + 1) s = .next t ∧ runSteps (k + 1) u = .next v ∧
      v.out = t.out ∧ v.qc = t.qc ∧ v.pending = t.pending ∧ (u.pending ≠ [] → v = t) := by
  cases hu : u.pending with
  | nil =>
    exact ⟨idle s, idle u, runSteps_of_nil (hp.trans hu) k, runSteps_of_nil hu k, rfl, hqc.symm, hp.symm,
      fun h => absurd rfl h⟩
  | cons p rest =>
    have hsame : step s = step u := unnamedInputBitsIgnored.2 s u p rest hqc (hp.trans hu) hu
    obtain ⟨t, hrun, -⟩ := runSteps_shows_outcome u k
    refine ⟨t, t, ?_, hrun, rfl, rfl, rfl, fun _ => rfl⟩
    rw [← hrun, runSteps, runSteps, hsame]

/-! ## Lanes of a container (R41, R122) -/

theorem resultLanes_splitLanes {w : LaneWidth} {c : ContainerWidth} (h : w.bits ≤ c.bits) (s : State) :
    resultLanes (.splitLanes w c) s = some (splitSlots w c s.ports.a) := by
  have hexec : exec (.splitLanes w c) s = completeLanes (splitSlots w c s.ports.a) s :=
    if_pos ((lanesFit_iff w c).mpr h)
  simp only [resultLanes, hexec, completeLanes, withOut_out]

/-- Slot `i` of a split is digit `i` of the container in base `2 ^ W`. -/
theorem toNat_getD_splitSlots (w : LaneWidth) (c : ContainerWidth) (v : Port) {i : Nat} (hi : i < c.bits / w.bits) :
    ((splitSlots w c v).getD i 0#64).toNat = v.toNat / (2 ^ w.bits) ^ i % 2 ^ w.bits := by
  have hfits : (laneOf w.bits v i).toNat < 2 ^ 64 :=
    Nat.lt_of_lt_of_le (laneOf w.bits v i).isLt (Nat.pow_le_pow_right (by decide) (laneWidth_bits_le w))
  rw [getD_splitSlots, if_pos (show i < laneCount w c from hi), BitVec.toNat_setWidth, Nat.mod_eq_of_lt hfits, laneOf,
    toNat_extractLsb'_mul]

theorem w8_le_container (c : ContainerWidth) : LaneWidth.w8.bits ≤ c.bits := by cases c <;> decide

/-- A digit in base `b * b` is two digits in base `b`, the odd one above the even one. -/
theorem digit_of_square (n b j : Nat) :
    n / (b * b) ^ j % (b * b) = n / b ^ (2 * j + 1) % b * b + n / b ^ (2 * j) % b := by
  have hsq : (b * b) ^ j = b ^ (2 * j) := by rw [Nat.pow_mul, Nat.pow_two]
  rw [hsq, Nat.mod_mul, Nat.div_div_eq_div_mul, ← Nat.pow_succ, Nat.add_comm, Nat.mul_comm b]

/-! ## Settled statements -/

/-- Settles O7: each byte is a digit in base 256, and the listing reads back by induction on the sequence. -/
theorem storedWordsReadBack : Obligations.StoredWordsReadBack := by
  unfold Obligations.StoredWordsReadBack
  refine ⟨fun cmd k hk => ?_, wordsOfBytes_bytesOfWords⟩
  rw [getElem?_bytesOfWord cmd hk, Nat.mul_comm]
  exact congrArg some (toNat_extractLsb'_mul cmd k 8)

/-- Settles O18: a fault keeps `QC`, and neither the outputs nor `qcAfter` see a `QC` the command wrote itself. -/
theorem issuingTwiceIsIssuingOnce : Obligations.IssuingTwiceIsIssuingOnce := by
  unfold Obligations.IssuingTwiceIsIssuingOnce
  intro qc qc' p o h
  cases hd : decode p.cmd with
  | error why =>
    cases (command_of_reserved hd qc).symm.trans h
    exact command_of_reserved hd qc
  | ok i =>
    cases hr : widthRefused i with
    | true =>
      obtain ⟨info, hinfo⟩ := offendingValues_of_refused hr
      cases (command_of_refused hd hr hinfo qc).symm.trans h
      exact command_of_refused hd hr hinfo qc
    | false =>
      cases (command_of_accepted hd hr qc).symm.trans h
      rw [command_of_accepted hd hr, qcAfter_qcAfter, outputsOf_qcAfter]

/-- Settles O20: the first commands lead to a state that agrees with `u` in `QC` and in the commands waiting, and
these decide every later step. -/
theorem runsComposeThroughQC : Obligations.RunsComposeThroughQC := by
  unfold Obligations.RunsComposeThroughQC
  rintro s u ps qs hs rfl hqc k
  obtain ⟨m, hfirst, hpending, hm⟩ := runSteps_through_append hs
  obtain ⟨t, v, ht, hv, hout, hrest⟩ := runSteps_determined (hm.trans hqc.symm) hpending k
  obtain ⟨v', hv', hshown⟩ := runSteps_shows_outcome u k
  cases hv.symm.trans hv'
  rw [hout] at hshown
  refine ⟨t, v, (runSteps_add hfirst (k + 1)).trans ht, hv, hshown, fun hk => ?_, hout, hrest⟩
  have hlength : k < (observe u.qc u.pending).outcomes.length := by rwa [length_outcomes_observe]
  rw [hshown, List.getElem?_eq_getElem hlength, Option.isSome_some]

/-- Settles O37: slots are the digits of the container in base `2 ^ W`, and doubling `W` squares the base. -/
theorem bytesAndMixedWidthLanes : Obligations.BytesAndMixedWidthLanes := by
  unfold Obligations.BytesAndMixedWidthLanes
  constructor
  · intro c s
    exact ⟨_, resultLanes_splitLanes (w8_le_container c) s, fun k hk => toNat_getD_splitSlots .w8 c _ hk⟩
  · intro w w' c s hdouble hfits
    refine ⟨_, _, resultLanes_splitLanes (by omega) s, resultLanes_splitLanes hfits s, fun j hj => ?_⟩
    have hcount : c.bits / w'.bits = c.bits / w.bits / 2 := by
      rw [hdouble, Nat.mul_comm, Nat.div_div_eq_div_mul]
    have hodd : 2 * j + 1 < c.bits / w.bits := by omega
    have hbase : 2 ^ w'.bits = 2 ^ w.bits * 2 ^ w.bits := by rw [hdouble, Nat.two_mul, Nat.pow_add]
    rw [toNat_getD_splitSlots w' c _ hj, toNat_getD_splitSlots w c _ hodd,
      toNat_getD_splitSlots w c _ (Nat.lt_of_succ_lt hodd), hbase, digit_of_square]

end Sys2Proof.Machine
end

section
/-! PROOFS. A command's word and its fields, the decoder's inversion lemma, and the words and reserved words of
spec/30_encoding.md. `decode` is unfolded in `decode_ok_iff` only. -/

namespace Sys2Proof

/-! ## Fields of a word (R61) -/

/-- A word is its fields joined, `RES` highest. -/
theorem join_fieldsOf (cmd : Word) :
    (fieldsOf cmd).res ++ (fieldsOf cmd).n ++ (fieldsOf cmd).s ++ (fieldsOf cmd).cw ++ (fieldsOf cmd).lw ++
      (fieldsOf cmd).op = cmd := by
  have join (lo n m : Nat) : cmd.extractLsb' (lo + n) m ++ cmd.extractLsb' lo n = cmd.extractLsb' lo (m + n) :=
    BitVec.extractLsb'_append_extractLsb'_eq_extractLsb' rfl
  rw [fieldsOf, join 10 7 15, join 9 1 22, join 7 2 23, join 5 2 25, join 0 5 27, BitVec.extractLsb'_eq_self]

theorem fieldsOf_injective {cmd cmd' : Word} (h : fieldsOf cmd = fieldsOf cmd') : cmd = cmd' := by
  rw [← join_fieldsOf cmd, h, join_fieldsOf]

/-- The fields as the numbers that R70's conditions are written in. -/
theorem toNat_fieldsOf (cmd : Word) :
    (fieldsOf cmd).op.toNat = cmd.toNat % 32 ∧ (fieldsOf cmd).lw.toNat = cmd.toNat / 32 % 4 ∧
    (fieldsOf cmd).cw.toNat = cmd.toNat / 128 % 4 ∧ (fieldsOf cmd).s.toNat = cmd.toNat / 512 % 2 ∧
    (fieldsOf cmd).n.toNat = cmd.toNat / 1024 % 128 ∧ (fieldsOf cmd).res.toNat = cmd.toNat / 131072 := by
  have field (lo n : Nat) : (cmd.extractLsb' lo n).toNat = cmd.toNat / 2 ^ lo % 2 ^ n := by
    rw [BitVec.extractLsb'_toNat, Nat.shiftRight_eq_div_pow]
  have htop : cmd.toNat / 131072 < 2 ^ 15 := by have := cmd.isLt; omega
  exact ⟨(field 0 5).trans (congrArg (· % 32) (Nat.div_one _)), field 5 2, field 7 2, field 9 1, field 10 7,
    (field 17 15).trans (Nat.mod_eq_of_lt htop)⟩

/-! ## Codes (R62 to R65) -/

/-- The `OP` value of an operation (R62). -/
def Opcode.code : Opcode → BitVec 5
  | .mask => 0x01
  | .maskLong => 0x02
  | .zeroExtend => 0x03
  | .signExtend => 0x04
  | .splitLanes => 0x05
  | .packLanes => 0x06
  | .saturatingAdd => 0x07
  | .saturatingSub => 0x08
  | .bitsOfFloat32 => 0x09
  | .float32OfBits => 0x0A
  | .bitsOfDouble => 0x0B
  | .doubleOfBits => 0x0C
  | .defaultNaN32 => 0x0D
  | .defaultNaN64 => 0x0E
  | .readQC => 0x0F
  | .writeQC => 0x10

@[simp] theorem Opcode.ofBits_code (op : Opcode) : Opcode.ofBits op.code = some op := by cases op <;> rfl

theorem Opcode.code_of_ofBits {b : BitVec 5} {op : Opcode} (h : Opcode.ofBits b = some op) : op.code = b := by
  have all : ∀ b : BitVec 5, ∀ op ∈ Opcode.ofBits b, op.code = b := by decide
  exact all b op h

/-- The opcode map has a hole exactly at 0x00 and from 0x11 up (R62, R70). -/
theorem Opcode.ofBits_eq_none_iff : ∀ b : BitVec 5, Opcode.ofBits b = none ↔ b.toNat = 0 ∨ 0x11 ≤ b.toNat := by
  decide

@[simp] theorem LaneWidth.ofCode_code (w : LaneWidth) : LaneWidth.ofCode w.code = w := by cases w <;> rfl

@[simp] theorem LaneWidth.code_ofCode : ∀ lw : BitVec 2, (LaneWidth.ofCode lw).code = lw := by decide

@[simp] theorem ContainerWidth.ofCode_code (c : ContainerWidth) : ContainerWidth.ofCode c.code = some c := by
  cases c <;> rfl

theorem ContainerWidth.code_of_ofCode {cw : BitVec 2} {c : ContainerWidth} (h : ContainerWidth.ofCode cw = some c) :
    c.code = cw := by
  have all : ∀ cw : BitVec 2, ∀ c ∈ ContainerWidth.ofCode cw, c.code = cw := by decide
  exact all cw c h

theorem ContainerWidth.exists_ofCode_iff :
    ∀ cw : BitVec 2, (∃ c, ContainerWidth.ofCode cw = some c) ↔ cw.toNat ≠ 3 := by
  simp only [← Option.isSome_iff_exists]
  decide

@[simp] theorem Signedness.ofCode_code (g : Signedness) : Signedness.ofCode g.code = g := by cases g <;> rfl

@[simp] theorem Signedness.code_ofCode : ∀ s : BitVec 1, (Signedness.ofCode s).code = s := by decide

/-! ## Commands as operations with field values (R69) -/

/-- Every well-formed command is its operation with field values that the word can hold. -/
theorem exists_command {i : Instr} (h : i.wellFormed = true) :
    ∃ (op : Opcode) (w : LaneWidth) (c : ContainerWidth) (g : Signedness) (n : Nat),
      n ≤ 127 ∧ op.command w c g n = i := by
  cases i with
  | mask n => exact ⟨.mask, .w8, .c32, .unsigned, n, of_decide_eq_true h, rfl⟩
  | maskLong n => exact ⟨.maskLong, .w8, .c32, .unsigned, n, of_decide_eq_true h, rfl⟩
  | zeroExtend n => exact ⟨.zeroExtend, .w8, .c32, .unsigned, n, of_decide_eq_true h, rfl⟩
  | signExtend n => exact ⟨.signExtend, .w8, .c32, .unsigned, n, of_decide_eq_true h, rfl⟩
  | splitLanes w c => exact ⟨.splitLanes, w, c, .unsigned, 0, by decide, rfl⟩
  | packLanes w c => exact ⟨.packLanes, w, c, .unsigned, 0, by decide, rfl⟩
  | saturatingAdd w g => exact ⟨.saturatingAdd, w, .c32, g, 0, by decide, rfl⟩
  | saturatingSub w g => exact ⟨.saturatingSub, w, .c32, g, 0, by decide, rfl⟩
  | bitsOfFloat32 => exact ⟨.bitsOfFloat32, .w8, .c32, .unsigned, 0, by decide, rfl⟩
  | float32OfBits => exact ⟨.float32OfBits, .w8, .c32, .unsigned, 0, by decide, rfl⟩
  | bitsOfDouble => exact ⟨.bitsOfDouble, .w8, .c32, .unsigned, 0, by decide, rfl⟩
  | doubleOfBits => exact ⟨.doubleOfBits, .w8, .c32, .unsigned, 0, by decide, rfl⟩
  | defaultNaN32 => exact ⟨.defaultNaN32, .w8, .c32, .unsigned, 0, by decide, rfl⟩
  | defaultNaN64 => exact ⟨.defaultNaN64, .w8, .c32, .unsigned, 0, by decide, rfl⟩
  | readQC => exact ⟨.readQC, .w8, .c32, .unsigned, 0, by decide, rfl⟩
  | writeQC => exact ⟨.writeQC, .w8, .c32, .unsigned, 0, by decide, rfl⟩

theorem wellFormed_command (op : Opcode) (w : LaneWidth) (c : ContainerWidth) (g : Signedness) {n : Nat}
    (h : n ≤ 127) : (op.command w c g n).wellFormed = true := by
  cases op with
  | mask | maskLong | zeroExtend | signExtend => exact decide_eq_true h
  | _ => rfl

/-- A command depends on no field that its operation does not use. -/
theorem command_congr {op : Opcode} {w w' : LaneWidth} {c c' : ContainerWidth} {g g' : Signedness} {n n' : Nat}
    (hw : op.uses.lw = true → w = w') (hc : op.uses.cw = true → c = c') (hg : op.uses.s = true → g = g')
    (hn : op.uses.n = true → n = n') : op.command w c g n = op.command w' c' g' n' := by
  cases op with
  | mask | maskLong | zeroExtend | signExtend => rw [Opcode.command, Opcode.command, hn rfl]
  | splitLanes | packLanes => rw [Opcode.command, Opcode.command, hw rfl, hc rfl]
  | saturatingAdd | saturatingSub => rw [Opcode.command, Opcode.command, hw rfl, hg rfl]
  | _ => rfl

/-- The fields of the word of an operation with field values: zero where the operation does not use the field
(R67, R68). -/
def commandFields (op : Opcode) (w : LaneWidth) (c : ContainerWidth) (g : Signedness) (n : Nat) : Fields where
  op := op.code
  lw := if op.uses.lw then w.code else 0
  cw := if op.uses.cw then c.code else 0
  s := if op.uses.s then g.code else 0
  n := if op.uses.n then BitVec.ofNat 7 n else 0
  res := 0

/-! The word of each shape has the fields that stand in its formula (R71); `Laws.fieldsOf_immediate` is the fourth. -/

theorem fieldsOf_opcode : ∀ op : BitVec 5, fieldsOf (op.setWidth 32) = ⟨op, 0, 0, 0, 0, 0⟩ := by decide

theorem fieldsOf_lanes (op : BitVec 5) (w : LaneWidth) (c : ContainerWidth) :
    fieldsOf (op.setWidth 32 ||| fieldAt 5 w.code.toNat ||| fieldAt 7 c.code.toNat) =
      ⟨op, w.code, c.code, 0, 0, 0⟩ := by
  revert op; cases w <;> cases c <;> decide

theorem fieldsOf_saturating (op : BitVec 5) (w : LaneWidth) (g : Signedness) :
    fieldsOf (op.setWidth 32 ||| fieldAt 5 w.code.toNat ||| fieldAt 9 g.code.toNat) =
      ⟨op, w.code, 0, g.code, 0, 0⟩ := by
  revert op; cases w <;> cases g <;> decide

/-- The encoder's word has these fields (R61, R71). -/
theorem fieldsOf_encode_command (op : Opcode) (w : LaneWidth) (c : ContainerWidth) (g : Signedness) {n : Nat}
    (h : n ≤ 127) : fieldsOf (encode (op.command w c g n)) = commandFields op w c g n := by
  cases op with
  | mask => exact Laws.fieldsOf_immediate 0x01 h
  | maskLong => exact Laws.fieldsOf_immediate 0x02 h
  | zeroExtend => exact Laws.fieldsOf_immediate 0x03 h
  | signExtend => exact Laws.fieldsOf_immediate 0x04 h
  | splitLanes => exact fieldsOf_lanes 0x05 w c
  | packLanes => exact fieldsOf_lanes 0x06 w c
  | saturatingAdd => exact fieldsOf_saturating 0x07 w g
  | saturatingSub => exact fieldsOf_saturating 0x08 w g
  | bitsOfFloat32 => exact fieldsOf_opcode 0x09
  | float32OfBits => exact fieldsOf_opcode 0x0A
  | bitsOfDouble => exact fieldsOf_opcode 0x0B
  | doubleOfBits => exact fieldsOf_opcode 0x0C
  | defaultNaN32 => exact fieldsOf_opcode 0x0D
  | defaultNaN64 => exact fieldsOf_opcode 0x0E
  | readQC => exact fieldsOf_opcode 0x0F
  | writeQC => exact fieldsOf_opcode 0x10

/-! ## What the decoder takes (R69) -/

/-- The fields hold what R67, R68 and R64 ask of a word of the operation. -/
structure LegalFields (op : Opcode) (f : Fields) : Prop where
  op_eq : f.op = op.code
  res : f.res = 0
  lw : op.uses.lw = false → f.lw = 0
  cw : op.uses.cw = false → f.cw = 0
  s : op.uses.s = false → f.s = 0
  n : op.uses.n = false → f.n = 0

/-- The inversion lemma of `decode`. -/
theorem decode_ok_iff {cmd : Word} {i : Instr} : decode cmd = .ok i ↔
    ∃ op c, LegalFields op (fieldsOf cmd) ∧ ContainerWidth.ofCode (fieldsOf cmd).cw = some c ∧
      op.command (.ofCode (fieldsOf cmd).lw) c (.ofCode (fieldsOf cmd).s) (fieldsOf cmd).n.toNat = i := by
  constructor
  · intro h
    simp only [decode] at h
    split at h
    · cases h
    · rename_i op hop
      split_ifs at h with hres hlw hcw hs hn
      split at h
      · cases h
      · rename_i c hc
        simp only [not_and, not_not] at hres hlw hcw hs hn
        exact ⟨op, c, ⟨(Opcode.code_of_ofBits hop).symm, hres, hlw, hcw, hs, hn⟩, hc, Except.ok.inj h⟩
  · rintro ⟨op, c, ⟨hop, hres, hlw, hcw, hs, hn⟩, hc, rfl⟩
    have hmap : Opcode.ofBits (fieldsOf cmd).op = some op := hop ▸ Opcode.ofBits_code op
    have taken {n : Nat} {used : Bool} {v : BitVec n} (h : used = false → v = 0) : ¬(used = false ∧ v ≠ 0) :=
      fun hbad => hbad.2 (h hbad.1)
    simp only [decode, hmap, hres, taken hlw, taken hcw, taken hs, taken hn, hc, ne_eq, not_true_eq_false, if_false]

/-- The word of an operation with field values decodes to that command. -/
theorem decode_of_commandFields {cmd : Word} {op : Opcode} {w : LaneWidth} {c : ContainerWidth} {g : Signedness}
    {n : Nat} (hn : n ≤ 127) (hf : fieldsOf cmd = commandFields op w c g n) :
    decode cmd = .ok (op.command w c g n) := by
  refine decode_ok_iff.mpr ⟨op, if op.uses.cw then c else .c32, ?_, ?_, ?_⟩ <;> rw [hf, commandFields]
  · constructor <;> simp +contextual
  · cases op.uses.cw with
    | false => rfl
    | true => exact ContainerWidth.ofCode_code c
  · have hcount : n % 128 = n := Nat.mod_eq_of_lt (Nat.lt_succ_of_le hn)
    apply command_congr <;> simp +contextual [hcount]

/-- A word that decodes has the fields of its command. -/
theorem fieldsOf_of_decode {cmd : Word} {i : Instr} (h : decode cmd = .ok i) :
    i.wellFormed = true ∧ fieldsOf cmd = fieldsOf (encode i) := by
  obtain ⟨op, c, ⟨hop, hres, hlw, hcw, hs, hn⟩, hc, rfl⟩ := decode_ok_iff.mp h
  have hcount : (fieldsOf cmd).n.toNat ≤ 127 := Nat.le_of_lt_succ (fieldsOf cmd).n.isLt
  refine ⟨wellFormed_command _ _ _ _ hcount, ?_⟩
  have kept {n : Nat} {used : Bool} {v : BitVec n} (h : used = false → v = 0) : v = if used then v else 0 := by
    cases used with
    | false => exact h rfl
    | true => rfl
  rw [fieldsOf_encode_command _ _ _ _ hcount, commandFields, LaneWidth.code_ofCode, Signedness.code_ofCode,
    ContainerWidth.code_of_ofCode hc, BitVec.ofNat_toNat, BitVec.setWidth_eq, ← kept hlw, ← kept hcw, ← kept hs,
    ← kept hn, ← hop, ← hres]

/-! ## Reserved words (R70) -/

theorem decode_error_iff (cmd : Word) : (∃ why, decode cmd = .error why) ↔ ¬ ∃ i, decode cmd = .ok i := by
  cases decode cmd <;> simp

/-- A word decodes to a command exactly if its fields are legal for some operation and `CW` is not 3. -/
theorem exists_decode_iff (cmd : Word) :
    (∃ i, decode cmd = .ok i) ↔ ∃ op, LegalFields op (fieldsOf cmd) ∧ (fieldsOf cmd).cw.toNat ≠ 3 := by
  simp only [decode_ok_iff, ← ContainerWidth.exists_ofCode_iff]
  constructor
  · rintro ⟨_, op, c, hlegal, hc, -⟩
    exact ⟨op, hlegal, c, hc⟩
  · rintro ⟨op, hlegal, c, hc⟩
    exact ⟨_, op, c, hlegal, hc, rfl⟩

end Sys2Proof

namespace Sys2Proof.Machine

/-- The legal fields of an operation, as conditions on the word's number. -/
theorem legalFields_iff {cmd : Word} {op : Opcode} (hop : (fieldsOf cmd).op = op.code) :
    LegalFields op (fieldsOf cmd) ↔ cmd.toNat / 131072 = 0 ∧
      (op.uses.lw = false → cmd.toNat / 32 % 4 = 0) ∧ (op.uses.cw = false → cmd.toNat / 128 % 4 = 0) ∧
      (op.uses.s = false → cmd.toNat / 512 % 2 = 0) ∧ (op.uses.n = false → cmd.toNat / 1024 % 128 = 0) := by
  obtain ⟨-, hlw, hcw, hs, hn, hres⟩ := toNat_fieldsOf cmd
  have zero {n : Nat} (v : BitVec n) : v.toNat = 0 ↔ v = 0 := by simp [BitVec.toNat_eq]
  rw [← hlw, ← hcw, ← hs, ← hn, ← hres]
  simp only [zero]
  exact ⟨fun h => ⟨h.res, h.lw, h.cw, h.s, h.n⟩, fun ⟨h1, h2, h3, h4, h5⟩ => ⟨hop, h1, h2, h3, h4, h5⟩⟩

/-- For a word with the `OP` value of an operation, R70's conditions say that its fields are not legal. -/
theorem reservedNumber_iff_of_op {cmd : Word} {op : Opcode} (hop : (fieldsOf cmd).op = op.code) :
    reservedNumber cmd.toNat ↔ ¬ (LegalFields op (fieldsOf cmd) ∧ (fieldsOf cmd).cw.toNat ≠ 3) := by
  obtain ⟨hopN, -, hcwN, -⟩ := toNat_fieldsOf cmd
  rw [hop] at hopN
  rw [legalFields_iff hop, hcwN, reservedNumber, ← hopN]
  cases op with
  | _ =>
    simp only [Opcode.uses, Opcode.code, BitVec.ofNat_eq_ofNat, BitVec.reduceToNat, reduceCtorEq, eq_self,
      true_implies, false_implies, and_true, true_and, false_or, true_or, or_true]
    omega

theorem decode_error_iff_reservedNumber (cmd : Word) :
    (∃ why, decode cmd = .error why) ↔ reservedNumber cmd.toNat := by
  rw [decode_error_iff, exists_decode_iff]
  cases hmap : Opcode.ofBits (fieldsOf cmd).op with
  | none =>
    have hnone : ¬ ∃ op, LegalFields op (fieldsOf cmd) ∧ (fieldsOf cmd).cw.toNat ≠ 3 := by
      rintro ⟨op, hlegal, -⟩
      rw [hlegal.op_eq, Opcode.ofBits_code] at hmap
      cases hmap
    have hhole := (Opcode.ofBits_eq_none_iff _).mp hmap
    rw [(toNat_fieldsOf cmd).1] at hhole
    exact iff_of_true hnone (hhole.imp_right .inl)
  | some op =>
    have hop := (Opcode.code_of_ofBits hmap).symm
    rw [reservedNumber_iff_of_op hop, not_iff_not]
    constructor
    · rintro ⟨op', hlegal, hcw⟩
      cases Option.some.inj ((Opcode.ofBits_code op').symm.trans (hlegal.op_eq ▸ hmap))
      exact ⟨hlegal, hcw⟩
    · exact fun h => ⟨op, h⟩

/-! ## Word numbers (R71) -/

theorem toNat_fieldAt {k v : Nat} (h : v < 2 ^ (32 - k)) (hk : k ≤ 32) : (fieldAt k v).toNat = v <<< k := by
  have hv : v * 2 ^ k < 2 ^ 32 := by
    calc v * 2 ^ k < 2 ^ (32 - k) * 2 ^ k := Nat.mul_lt_mul_of_pos_right h (Nat.two_pow_pos k)
      _ = 2 ^ 32 := by rw [← Nat.pow_add, Nat.sub_add_cancel hk]
  have hv' : v < 2 ^ 32 := Nat.lt_of_lt_of_le h (Nat.pow_le_pow_right (by decide) (Nat.sub_le 32 k))
  rw [fieldAt, BitVec.toNat_shiftLeft, BitVec.toNat_ofNat, Nat.mod_eq_of_lt hv', Nat.shiftLeft_eq,
    Nat.mod_eq_of_lt hv]

/-- The count of an immediate's word stands above its `OP` value, so the two add up. -/
theorem toNat_immediate {op : Word} {n : Nat} (hop : op.toNat < 2 ^ 10) (h : n ≤ 127) :
    (op ||| fieldAt 10 n).toNat = op.toNat + n * 1024 := by
  rw [BitVec.toNat_or, toNat_fieldAt (by omega) (by decide), Nat.or_comm, ← Nat.shiftLeft_add_eq_or_of_lt hop,
    Nat.shiftLeft_eq, Nat.add_comm]

theorem toNat_encode {i : Instr} (h : i.wellFormed = true) : (encode i).toNat = wordNumber i := by
  cases i with
  | mask n | maskLong n | zeroExtend n | signExtend n => exact toNat_immediate (by decide) (of_decide_eq_true h)
  | splitLanes w c | packLanes w c => cases w <;> cases c <;> rfl
  | saturatingAdd w g | saturatingSub w g => cases w <;> cases g <;> rfl
  | _ => rfl

/-! ## Settled statements -/

/-- Settles O1: a well-formed command is an operation with field values, and the encoder's word has their fields. -/
theorem decodeOfEncode : Obligations.DecodeOfEncode := by
  unfold Obligations.DecodeOfEncode
  intro i h
  obtain ⟨op, w, c, g, n, hn, rfl⟩ := exists_command h
  exact decode_of_commandFields hn (fieldsOf_encode_command op w c g hn)

/-- Settles O2: the word has the fields of its command's word, and the fields decide the word. -/
theorem encodeOfDecode : Obligations.EncodeOfDecode := by
  unfold Obligations.EncodeOfDecode
  intro cmd i h
  obtain ⟨hwf, hfields⟩ := fieldsOf_of_decode h
  exact ⟨hwf, (fieldsOf_injective hfields).symm⟩

/-- Settles O3, from `decode_error_iff_reservedNumber` and the step on a reserved word. -/
theorem reservedWordsExactly : Obligations.ReservedWordsExactly := by
  unfold Obligations.ReservedWordsExactly
  refine ⟨decode_error_iff_reservedNumber, fun s p rest hp hreserved => ?_⟩
  obtain ⟨why, hd⟩ := (decode_error_iff_reservedNumber p.cmd).mpr hreserved
  exact step_of_reserved hp hd

/-- Settles O4: the word's number, the round trip of O1, and the two answers of `exec`. -/
theorem everyLegalWord : Obligations.EveryLegalWord := by
  unfold Obligations.EveryLegalWord
  intro i h
  refine ⟨toNat_encode h, decodeOfEncode i h, fun s => ⟨fun hr => ?_, fun hr => ?_⟩⟩
  · exact ⟨_, _, exec_of_accepted hr s⟩
  · obtain ⟨info, hinfo⟩ := offendingValues_of_refused hr
    exact ⟨info, hinfo, exec_of_refused hr hinfo s⟩

/-- Settles O5: `decode` evaluates each word. -/
theorem writtenOutWordsDecode : Obligations.WrittenOutWordsDecode := by
  unfold Obligations.WrittenOutWordsDecode
  decide

/-- Settles O6: the codes are evaluated one by one, and the container's code is read back by `code_of_ofCode`. -/
theorem fieldCodesSelectWidths : Obligations.FieldCodesSelectWidths := by
  unfold Obligations.FieldCodesSelectWidths
  refine ⟨fun lw => ⟨?_, LaneWidth.code_ofCode lw⟩, fun cw => ?_, rfl, rfl⟩
  · revert lw; decide
  · cases hc : ContainerWidth.ofCode cw with
    | none => revert cw; decide
    | some c =>
      have hcode := ContainerWidth.code_of_ofCode hc
      subst hcode
      exact .inr ⟨c, rfl, by cases c <;> decide⟩

end Sys2Proof.Machine
end

section
/-! PROOFS. What the assembler reads from a line, and the pseudo-instructions (spec/30_encoding.md R72, R73). -/

namespace Sys2Proof.Machine

/-! ## Case (R72) -/

theorem lower_map_toUpper (line : List Char) : lower (line.map Char.toUpper) = lower line := by
  simp only [lower, List.map_map, Function.comp_def, Char.toLower_toUpper_eq_toLower]

/-- A line is read in lower case only, so its parts do not depend on its case. -/
theorem lineParts_map_toUpper (line : List Char) : lineParts (line.map Char.toUpper) = lineParts line := by
  simp only [lineParts, lower_map_toUpper]

/-! ## Decimal numbers -/

theorem isDigit_of_mem_decimal {n : Nat} {c : Char} (h : c ∈ decimal n) : c.isDigit = true :=
  Nat.isDigit_of_mem_toDigits (by decide) (by decide) h

theorem decimal_ne_nil (n : Nat) : decimal n ≠ [] := Nat.toDigits_ne_nil

theorem toLower_of_isDigit {c : Char} (h : c.isDigit = true) : c.toLower = c := by
  apply Char.toLower_eq_of_not_isUpper
  simp only [Char.isDigit, Char.isUpper, Bool.and_eq_true, decide_eq_true_eq, UInt32.le_iff_toNat_le] at h ⊢
  intro hupper
  exact absurd (Nat.le_trans hupper.1 h.2) (by decide)

theorem lower_decimal (n : Nat) : lower (decimal n) = decimal n :=
  (List.map_congr_left fun _ h => toLower_of_isDigit (isDigit_of_mem_decimal h)).trans (List.map_id _)

theorem digitValue_of_isDigit {c : Char} (h : c.isDigit = true) : digitValue 10 c = some (c.toNat - '0'.toNat) := by
  have hrange : '0' ≤ c ∧ c ≤ '9' := by
    rwa [Char.isDigit, Bool.and_eq_true, decide_eq_true_eq, decide_eq_true_eq] at h
  have hnine : c.toNat ≤ 57 := hrange.2
  simp only [digitValue, if_pos hrange]
  exact if_pos (by omega)

theorem digitsValue_of_isDigit {ds : List Char} (h : ∀ c ∈ ds, c.isDigit = true) (acc : Nat) :
    digitsValue 10 ds acc = some (Nat.ofDigitChars 10 ds acc) := by
  induction ds generalizing acc with
  | nil => rfl
  | cons c rest ih =>
    obtain ⟨hc, hrest⟩ := List.forall_mem_cons.mp h
    rw [digitsValue, digitValue_of_isDigit hc, Option.bind_some, ih hrest, Nat.ofDigitChars_cons, Nat.mul_comm]

/-- Digits alone are a decimal number: `0x` has a letter in it. -/
theorem number_of_isDigit {ds : List Char} (h : ∀ c ∈ ds, c.isDigit = true) (hne : ds ≠ []) :
    number ds = digitsValue 10 ds 0 := by
  unfold number
  split
  · exact absurd rfl hne
  · exact absurd (h 'x' (by simp)) (by decide)
  · rfl

theorem number_decimal (n : Nat) : number (decimal n) = some n := by
  have hdigits : ∀ c ∈ decimal n, c.isDigit = true := fun _ => isDigit_of_mem_decimal
  rw [number_of_isDigit hdigits (decimal_ne_nil n), digitsValue_of_isDigit hdigits, decimal,
    Nat.ofDigitChars_toDigits (by decide) (by decide)]

theorem countOperand_decimal (n : Nat) : countOperand ('#' :: decimal n) = if n ≤ 127 then some n else none := by
  rw [countOperand, number_decimal, Option.bind_some]

/-! ## Parts of a line -/

theorem splitAt_ne_nil (c : Char) (cs : List Char) : splitAt c cs ≠ [] := by
  cases cs with
  | nil => simp [splitAt]
  | cons d rest =>
    cases hrest : splitAt c rest with
    | nil => simp [splitAt, hrest]
    | cons part parts => simp only [splitAt, hrest]; split <;> simp

theorem splitAt_of_notMem {c : Char} {cs : List Char} (h : c ∉ cs) : splitAt c cs = [cs] := by
  induction cs with
  | nil => rfl
  | cons d rest ih =>
    obtain ⟨hd, hrest⟩ := List.ne_and_not_mem_of_not_mem_cons h
    simp [splitAt, ih hrest, Ne.symm hd]

theorem splitAt_append_cons {c : Char} {a : List Char} (h : c ∉ a) (b : List Char) :
    splitAt c (a ++ c :: b) = a :: splitAt c b := by
  induction a with
  | nil =>
    obtain ⟨part, parts, hb⟩ := List.exists_cons_of_ne_nil (splitAt_ne_nil c b)
    simp [splitAt, hb]
  | cons d rest ih =>
    obtain ⟨hd, hrest⟩ := List.ne_and_not_mem_of_not_mem_cons h
    simp [splitAt, ih hrest, Ne.symm hd]

theorem opcodeNamed_mnemonicText (op : Opcode) : opcodeNamed (lower (mnemonicText op).toList) = some op := by
  cases op <;> decide

theorem mnemonicText_is_one_part (op : Opcode) : ' ' ∉ lower (mnemonicText op).toList ∧
    '.' ∉ lower (mnemonicText op).toList ∧ lower (mnemonicText op).toList ≠ [] := by
  cases op <;> decide

/-- The parts of a line that is a mnemonic, a blank and an operand. -/
theorem lineParts_mnemonic_operand (op : Opcode) {operand : List Char} (hblank : ' ' ∉ lower operand)
    (hne : lower operand ≠ []) : lineParts ((mnemonicText op).toList ++ ' ' :: operand) =
      some (lower (mnemonicText op).toList, [], [lower operand]) := by
  obtain ⟨hname, hstop, hnameNe⟩ := mnemonicText_is_one_part op
  have hlower : lower ((mnemonicText op).toList ++ ' ' :: operand) =
      lower (mnemonicText op).toList ++ ' ' :: lower operand := List.map_append
  have htokens : tokens (lower ((mnemonicText op).toList ++ ' ' :: operand)) =
      [lower (mnemonicText op).toList, lower operand] := by
    rw [tokens, hlower, splitAt_append_cons hname, splitAt_of_notMem hblank]
    simp [hne, hnameNe]
  simp only [lineParts, htokens, splitAt_of_notMem hstop]

/-- A line that is a mnemonic and a decimal count reads as the mnemonic's command. -/
theorem assemble_decimal_count (op : Opcode) {command : Nat → Instr} {text : List Char} {n : Nat}
    (hcommand : ∀ t, commandLine op [] [t] = (countOperand t).map command)
    (htext : text = (mnemonicText op).toList ++ [' ', '#']) (h : n ≤ 127) :
    assemble (text ++ decimal n) = some (command n) := by
  have hlower : lower ('#' :: decimal n) = '#' :: decimal n := congrArg ('#' :: ·) (lower_decimal n)
  have hblank : ' ' ∉ lower ('#' :: decimal n) := by
    rw [hlower, List.mem_cons]
    rintro (hmark | hdigit)
    · exact absurd hmark (by decide)
    · exact absurd (isDigit_of_mem_decimal hdigit) (by decide)
  have hparts := lineParts_mnemonic_operand op hblank (by simp [hlower])
  rw [hlower] at hparts
  rw [htext, List.append_assoc, List.cons_append, List.cons_append, List.nil_append, assemble, hparts,
    Option.bind_some]
  simp only [opcodeNamed_mnemonicText, Option.bind_some, hcommand, countOperand_decimal, if_pos h, Option.map_some]

/-! ## Well-formed commands only (R72) -/

theorem le_of_countOperand {t : List Char} {n : Nat} (h : countOperand t = some n) : n ≤ 127 := by
  unfold countOperand at h
  split at h
  · obtain ⟨m, -, hm⟩ := Option.bind_eq_some_iff.mp h
    split at hm
    · cases hm; assumption
    · cases hm
  · cases h

theorem wellFormed_of_commandLine {op : Opcode} {suffix operands : List (List Char)} {i : Instr}
    (h : commandLine op suffix operands = some i) : i.wellFormed = true := by
  unfold commandLine at h
  split at h
  case h_1 | h_2 | h_3 | h_4 =>
    obtain ⟨n, hn, rfl⟩ := Option.map_eq_some_iff.mp h
    exact decide_eq_true (le_of_countOperand hn)
  case h_5 | h_6 =>
    obtain ⟨w, -, hc⟩ := Option.bind_eq_some_iff.mp h
    obtain ⟨c, -, rfl⟩ := Option.map_eq_some_iff.mp hc
    rfl
  case h_7 | h_8 =>
    obtain ⟨⟨g, w⟩, -, rfl⟩ := Option.map_eq_some_iff.mp h
    rfl
  case h_17 => cases h
  all_goals
    cases h
    rfl

theorem wellFormed_of_assemble {line : List Char} {i : Instr} (h : assemble line = some i) : i.wellFormed = true := by
  obtain ⟨⟨name, suffix, operands⟩, -, hop⟩ := Option.bind_eq_some_iff.mp h
  obtain ⟨op, -, hcommand⟩ := Option.bind_eq_some_iff.mp hop
  exact wellFormed_of_commandLine hcommand

theorem wellFormed_expand (q : Pseudo) : q.expand.wellFormed = true := by
  cases q with
  | sext w | zext w => cases w <;> decide
  | _ => rfl

/-! ## Ports driven for a pseudo-instruction (R73) -/

@[simp] theorem drive_cmd (q : Pseudo) (p : Ports) : (q.drive p).cmd = encode q.expand := by cases q <;> rfl
@[simp] theorem drive_b (q : Pseudo) (p : Ports) : (q.drive p).b = p.b := by cases q <;> rfl
@[simp] theorem drive_lin (q : Pseudo) (p : Ports) : (q.drive p).lin = p.lin := by cases q <;> rfl

/-- The replaced bits of a port read back. -/
theorem lowBits_setLowBits {n : Nat} (hn : n ≤ 128) (v : Port) (x : BitVec n) : lowBits n (setLowBits v x) = x := by
  apply BitVec.eq_of_getLsbD_eq
  intro j hj
  rw [getLsbD_lowBits, setLowBits, BitVec.getLsbD_or, BitVec.getLsbD_shiftLeft, BitVec.getLsbD_setWidth]
  simp [hj, show j < 128 by omega]

theorem fieldValue_of_lowBits_zero {w : Nat} {v : Port} (hw : 0 < w) (h : lowBits w v = 0#w) (g : Signedness) :
    fieldValue g w v = 0 := by
  have hnumber : v.toNat % 2 ^ w = 0 := by rw [← toNat_lowBits, h, BitVec.toNat_zero]
  have hsign : v.getLsbD (w - 1) = false := by
    have hbit := getLsbD_lowBits w v (w - 1)
    rw [h, BitVec.getLsbD_zero, decide_eq_true (by omega), Bool.true_and] at hbit
    exact hbit.symm
  cases g <;> simp [fieldValue, hnumber, hsign]

/-- A step on ports driven for a pseudo-instruction runs its command. -/
theorem step_of_drive {s : State} {q : Pseudo} {p : Ports} {rest : List Ports} (h : s.pending = q.drive p :: rest) :
    step s = exec q.expand { qc := s.qc, ports := q.drive p, out := none, pending := rest } :=
  step_of_decode h (by rw [drive_cmd]; exact decodeOfEncode _ (wellFormed_expand q))

/-- `writeQC` leaves the low bit of `A` in `QC` (R191). -/
theorem exec_writeQC_qc (s : State) : ∃ t, exec .writeQC s = .next t ∧ t.qc = s.ports.a.getLsbD 0 :=
  ⟨_, exec_of_accepted rfl s, rfl⟩

theorem getLsbD_zero_setLowBits (v : Port) (x : BitVec 1) : (setLowBits v x).getLsbD 0 = x.getLsbD 0 := by
  have hbit := getLsbD_lowBits 1 (setLowBits v x) 0
  rw [lowBits_setLowBits (by decide)] at hbit
  exact hbit.symm

/-! ## Settled statements -/

/-- Settles O8: a count line by `assemble_decimal_count`; a line without a number is one of finitely many, which the
assembler evaluates. -/
theorem assembleReadsWhatIsWritten : Obligations.AssembleReadsWhatIsWritten := by
  unfold Obligations.AssembleReadsWhatIsWritten
  intro i h
  cases i with
  | mask n => exact assemble_decimal_count .mask (fun _ => rfl) (by decide) (of_decide_eq_true h)
  | maskLong n => exact assemble_decimal_count .maskLong (fun _ => rfl) (by decide) (of_decide_eq_true h)
  | zeroExtend n => exact assemble_decimal_count .zeroExtend (fun _ => rfl) (by decide) (of_decide_eq_true h)
  | signExtend n => exact assemble_decimal_count .signExtend (fun _ => rfl) (by decide) (of_decide_eq_true h)
  | splitLanes w c | packLanes w c => cases w <;> cases c <;> decide
  | saturatingAdd w g | saturatingSub w g => cases w <;> cases g <;> decide
  | _ => decide

/-- Settles O9, from `lineParts_map_toUpper`. -/
theorem assemblyIgnoresCase : Obligations.AssemblyIgnoresCase := by
  unfold Obligations.AssemblyIgnoresCase
  intro line
  simp only [assemble, assemblePseudo, lineParts_map_toUpper, and_self]

/-- Settles O10: decimal digits are read as the number they were written from, and the operand compares it with 127. -/
theorem decimalCountOperand : Obligations.DecimalCountOperand := by
  unfold Obligations.DecimalCountOperand
  exact countOperand_decimal

/-- Settles O11: what assembles is well formed, and O1 decodes its word. -/
theorem assemblerWritesNoReservedWord : Obligations.AssemblerWritesNoReservedWord := by
  unfold Obligations.AssemblerWritesNoReservedWord
  refine ⟨fun line i h => decodeOfEncode i (wellFormed_of_assemble h), fun line cmd h => ?_⟩
  unfold lineWord at h
  split at h
  next i hi =>
    cases h
    exact ⟨i, decodeOfEncode i (wellFormed_of_assemble hi)⟩
  next =>
    obtain ⟨q, -, rfl⟩ := Option.map_eq_some_iff.mp h
    exact ⟨q.expand, decodeOfEncode _ (wellFormed_expand q)⟩

/-- Settles O12: the step runs the expansion, and the constrained bits of `A` read back. -/
theorem pseudoInstructionsExpand : Obligations.PseudoInstructionsExpand := by
  unfold Obligations.PseudoInstructionsExpand
  intro q s p rest h
  have hstep := step_of_drive h
  refine ⟨drive_b q p, drive_lin q p, hstep, ?_⟩
  cases q with
  | clearQC =>
    have hbit : (Pseudo.drive .clearQC p).a.getLsbD 0 = false := getLsbD_zero_setLowBits p.a 0#1
    obtain ⟨t, ht, hqc⟩ := exec_writeQC_qc ⟨s.qc, Pseudo.drive .clearQC p, none, rest⟩
    exact ⟨rfl, hbit, t, hstep.trans ht, hqc.trans hbit⟩
  | setQC =>
    have hbit : (Pseudo.drive .setQC p).a.getLsbD 0 = true := getLsbD_zero_setLowBits p.a 1#1
    obtain ⟨t, ht, hqc⟩ := exec_writeQC_qc ⟨s.qc, Pseudo.drive .setQC p, none, rest⟩
    exact ⟨rfl, hbit, t, hstep.trans ht, hqc.trans hbit⟩
  | saturatingNeg g w =>
    have hw : w.bits ≤ 128 := Nat.le_trans (laneWidth_bits_le w) (by decide)
    exact ⟨rfl, fieldValue_of_lowBits_zero (laneWidth_bits_pos w) (lowBits_setLowBits hw p.a _) g⟩
  | sext w => exact ⟨rfl, rfl⟩
  | zext w => exact ⟨rfl, rfl⟩

end Sys2Proof.Machine
end

section
/-! PROOFS. The results of the mask and extension commands, and the statements of spec/40_mask_extend.md. -/

namespace Sys2Proof.Machine

/-! ## The two answers of a command, as a statement about one command says them -/

/-- A command that neither saturates nor is `writeQC` completes with `outputsOf` and keeps `QC` (R21). -/
theorem completesWith_outputsOf (i : Instr) (hr : widthRefused i = false) (hs : saturates i = false)
    (hw : i ≠ .writeQC) (s : State) : completesWith i s s.qc (outputsOf i s.qc s.ports) := by
  have hexec := exec_of_accepted hr s
  rwa [qcAfter_of_not_writer hs hw] at hexec

theorem faultsWith_of_refused (i : Instr) {info : WidthInfo} (hr : widthRefused i = true)
    (hinfo : offendingValues i = some info) (s : State) :
    faultsWith i s (.invalidWidth s.ports.cmd info) :=
  exec_of_refused hr hinfo s

theorem resultR_of_completesWith {i : Instr} {s : State} {qc : Bool} {o : Outputs} (h : completesWith i s qc o) :
    resultR i s = some o.r := by
  have hexec : exec i s = .next { s with qc := qc, out := some (.ok o) } := h
  simp only [resultR, hexec]

/-! ## Values -/

/-- A field widened and driven on `R` is its number there (R10). -/
theorem driveR_setWidth {n m : Nat} (hnm : n ≤ m) (v : BitVec n) :
    driveR (v.setWidth m) = BitVec.ofNat 128 v.toNat := by
  rw [driveR, BitVec.setWidth_setWidth fun h => Nat.not_lt.mpr hnm h.1, BitVec.ofNat_toNat]

theorem driveR_ones {n m : Nat} (hnm : n ≤ m) : driveR ((ones n).setWidth m) = BitVec.ofNat 128 (2 ^ n - 1) := by
  rw [driveR_setWidth hnm, toNat_ones]

/-- The low bits of what is driven on `R` (R10). -/
theorem lowBits_driveR {m : Nat} (hm : m ≤ 128) {n : Nat} (v : BitVec n) : lowBits m (driveR v) = v.setWidth m :=
  BitVec.setWidth_setWidth_of_le v hm

theorem msb_lowBits {n : Nat} (hn : 0 < n) (v : Port) : (lowBits n v).msb = v.getLsbD (n - 1) := by
  rw [BitVec.msb_eq_getLsbD_last, getLsbD_lowBits, decide_eq_true (Nat.sub_one_lt_of_lt hn), Bool.true_and]

/-- The unsigned reading of a port's low bits (R9). -/
theorem fieldValue_unsigned (w : Nat) (v : Port) : fieldValue .unsigned w v = (lowBits w v).toNat := by
  rw [toNat_lowBits, fieldValue]

/-- The signed reading of a port's low bits is two's complement (R9). -/
theorem fieldValue_signed {w : Nat} (hw : 0 < w) (v : Port) : fieldValue .signed w v = (lowBits w v).toInt := by
  rw [BitVec.toInt_eq_msb_cond, msb_lowBits hw, toNat_lowBits, fieldValue, Nat.cast_pow, Nat.cast_ofNat]

/-! ## What the extension commands deliver (R102, R103) -/

/-- The result of `zeroExtend #n` on `A = v`; `zeroExtend_completesWith` ties it to the command. -/
def zeroExtended (n : Nat) (v : Port) : Port := driveR ((lowBits n v).setWidth 64)

/-- The result of `signExtend #n` on `A = v`; `signExtend_completesWith` ties it to the command. -/
def signExtended (n : Nat) (v : Port) : Port := driveR (sext64 (lowBits n v))

theorem zeroExtend_completesWith {n : Nat} (hn : n ≤ 64) (s : State) :
    completesWith (.zeroExtend n) s s.qc (resultOnly (zeroExtended n s.ports.a)) :=
  completesWith_outputsOf (.zeroExtend n) (decide_eq_false (Nat.not_lt.mpr hn)) rfl nofun s

theorem signExtend_completesWith {n : Nat} (hpos : 1 ≤ n) (hn : n ≤ 64) (s : State) :
    completesWith (.signExtend n) s s.qc (resultOnly (signExtended n s.ports.a)) :=
  have hlegal : ¬ (n = 0 ∨ n > 64) := by omega
  completesWith_outputsOf (.signExtend n) (decide_eq_false hlegal) rfl nofun s

theorem zeroExtended_eq_ofNat {n : Nat} (hn : n ≤ 64) (v : Port) :
    zeroExtended n v = BitVec.ofNat 128 (v.toNat % 2 ^ n) := by
  rw [zeroExtended, driveR_setWidth hn, toNat_lowBits]

theorem getLsbD_signExtended {n : Nat} (hpos : 1 ≤ n) (hn : n ≤ 64) (v : Port) (j : Nat) :
    (signExtended n v).getLsbD j =
      if j < n then v.getLsbD j else if j ≤ 63 then v.getLsbD (n - 1) else false := by
  rw [signExtended, getLsbD_driveR, getLsbD_sext64, getLsbD_lowBits, msb_lowBits hpos]
  by_cases hfield : j < n
  · simp [hfield, show j < 64 by omega, show j < 128 by omega]
  · by_cases hcopy : j ≤ 63
    · simp [hfield, hcopy, show j < 64 by omega, show j < 128 by omega]
    · simp [hfield, hcopy, show ¬ j < 64 by omega]

/-! ## The extended field (R104)

Both commands keep the low `n` bits and read no others, which gives the laws that feed a result back. -/

theorem lowBits_zeroExtended {n : Nat} (hn : n ≤ 64) (v : Port) : lowBits n (zeroExtended n v) = lowBits n v := by
  rw [zeroExtended, lowBits_driveR (by omega), BitVec.setWidth_setWidth_of_le _ hn, BitVec.setWidth_eq]

theorem lowBits_signExtended {n : Nat} (hpos : 1 ≤ n) (hn : n ≤ 64) (v : Port) :
    lowBits n (signExtended n v) = lowBits n v :=
  lowBits_of_agreeBelow fun j hj => by rw [getLsbD_signExtended hpos hn, if_pos hj]

theorem zeroExtended_congr {n : Nat} {v v' : Port} (h : lowBits n v = lowBits n v') :
    zeroExtended n v = zeroExtended n v' := by
  rw [zeroExtended, h, zeroExtended]

theorem signExtended_congr {n : Nat} {v v' : Port} (h : lowBits n v = lowBits n v') :
    signExtended n v = signExtended n v' := by
  rw [signExtended, h, signExtended]

/-- `uint_64` of a zero extension is `uint_n` of the field (R104). -/
theorem fieldValue_zeroExtended {n : Nat} (hn : n ≤ 64) (v : Port) :
    fieldValue .unsigned 64 (zeroExtended n v) = fieldValue .unsigned n v := by
  rw [fieldValue_unsigned, fieldValue_unsigned, zeroExtended, lowBits_driveR (by decide), BitVec.setWidth_eq,
    BitVec.toNat_setWidth_of_le hn]

/-- `sint_64` of a sign extension is `sint_n` of the field (R104). -/
theorem fieldValue_signExtended {n : Nat} (hpos : 1 ≤ n) (hn : n ≤ 64) (v : Port) :
    fieldValue .signed 64 (signExtended n v) = fieldValue .signed n v := by
  rw [fieldValue_signed (by decide), fieldValue_signed hpos, signExtended, lowBits_driveR (by decide),
    BitVec.setWidth_eq, sext64, BitVec.toInt_signExtend_of_le hn]

/-! ## Settled statements -/

/-- Settles O28: the word's number, the refusal above 32, and the mask's number on `R`. -/
theorem maskCommand : Obligations.MaskCommand := by
  unfold Obligations.MaskCommand
  intro n s
  refine ⟨fun h => toNat_encode (decide_eq_true h),
    fun h => faultsWith_of_refused (.mask n) (decide_eq_true h) rfl s, fun h => ?_⟩
  rw [← driveR_ones h]
  exact completesWith_outputsOf (.mask n) (decide_eq_false (Nat.not_lt.mpr h)) rfl nofun s

/-- Settles O29: the word's number, the refusal above 64, and the mask's number on `R`. -/
theorem maskLongCommand : Obligations.MaskLongCommand := by
  unfold Obligations.MaskLongCommand
  intro n s
  refine ⟨fun h => toNat_encode (decide_eq_true h),
    fun h => faultsWith_of_refused (.maskLong n) (decide_eq_true h) rfl s, fun h => ?_⟩
  rw [← driveR_ones h]
  exact completesWith_outputsOf (.maskLong n) (decide_eq_false (Nat.not_lt.mpr h)) rfl nofun s

/-- Settles O30: the word's number, the refusal above 64, and the field's number on `R`. -/
theorem zeroExtendCommand : Obligations.ZeroExtendCommand := by
  unfold Obligations.ZeroExtendCommand
  intro n s
  refine ⟨fun h => toNat_encode (decide_eq_true h),
    fun h => faultsWith_of_refused (.zeroExtend n) (decide_eq_true h) rfl s, fun h => ?_⟩
  rw [← zeroExtended_eq_ofNat h]
  exact zeroExtend_completesWith h s

/-- Settles O31: the word's number, the refusal at 0 and above 64, and the bits of the result. -/
theorem signExtendCommand : Obligations.SignExtendCommand := by
  unfold Obligations.SignExtendCommand
  intro n s
  exact ⟨fun h => toNat_encode (decide_eq_true h),
    fun h => faultsWith_of_refused (.signExtend n) (decide_eq_true h) rfl s,
    fun hpos hn => ⟨_, signExtend_completesWith hpos hn s, getLsbD_signExtended hpos hn s.ports.a⟩⟩

/-- Settles O32: each extension keeps the low `n` bits, the other reads no more than those, and the readings are
those of the field. -/
theorem extensionLaws : Obligations.ExtensionLaws := by
  unfold Obligations.ExtensionLaws
  intro n s hpos hn
  have hsign (t : State) : resultR (.signExtend n) t = some (signExtended n t.ports.a) :=
    resultR_of_completesWith (signExtend_completesWith hpos hn t)
  have hzero (t : State) : resultR (.zeroExtend n) t = some (zeroExtended n t.ports.a) :=
    resultR_of_completesWith (zeroExtend_completesWith hn t)
  have hkeepSign := lowBits_signExtended hpos hn s.ports.a
  have hkeepZero := lowBits_zeroExtended hn s.ports.a
  exact ⟨signExtended n s.ports.a, zeroExtended n s.ports.a, hsign s, hzero s,
    (hsign _).trans (congrArg some (signExtended_congr hkeepSign)),
    (hzero _).trans (congrArg some (zeroExtended_congr hkeepSign)),
    (hsign _).trans (congrArg some (signExtended_congr hkeepZero)),
    fieldValue_signExtended hpos hn s.ports.a, fieldValue_zeroExtended hn s.ports.a⟩

end Sys2Proof.Machine
end

section
/-! PROOFS. The bits of split and packed lanes, and the statements of spec/41_lanes.md. -/

namespace Sys2Proof.Machine

/-! ## The two answers of a lane command (R120, R123, R124) -/

/-- The lane commands refuse exactly R120's `W > C`. -/
theorem lanesRefused_iff (w : LaneWidth) (c : ContainerWidth) : w = .w64 ∧ c = .c32 ↔ c.bits < w.bits := by
  rw [← Nat.not_le, ← lanesFit_iff, lanesFit_eq_not_refused, Bool.not_eq_true', decide_eq_false_iff_not, not_not]

theorem splitLanes_faultsWith {w : LaneWidth} {c : ContainerWidth} (h : c.bits < w.bits) (s : State) :
    faultsWith (.splitLanes w c) s (.invalidWidth s.ports.cmd (.lanes w c)) :=
  faultsWith_of_refused (.splitLanes w c) (decide_eq_true ((lanesRefused_iff w c).mpr h)) rfl s

theorem packLanes_faultsWith {w : LaneWidth} {c : ContainerWidth} (h : c.bits < w.bits) (s : State) :
    faultsWith (.packLanes w c) s (.invalidWidth s.ports.cmd (.lanes w c)) :=
  faultsWith_of_refused (.packLanes w c) (decide_eq_true ((lanesRefused_iff w c).mpr h)) rfl s

theorem splitLanes_completesWith {w : LaneWidth} {c : ContainerWidth} (h : w.bits ≤ c.bits) (s : State) :
    completesWith (.splitLanes w c) s s.qc { r := 0#128, lout := splitSlots w c s.ports.a, sat := false } :=
  have haccepted : ¬ (w = .w64 ∧ c = .c32) := (lanesRefused_iff w c).not.mpr (Nat.not_lt.mpr h)
  completesWith_outputsOf (.splitLanes w c) (decide_eq_false haccepted) rfl nofun s

theorem packLanes_completesWith {w : LaneWidth} {c : ContainerWidth} (h : w.bits ≤ c.bits) (s : State) :
    completesWith (.packLanes w c) s s.qc (resultOnly (driveR (packSlots w c s.ports.lin))) :=
  have haccepted : ¬ (w = .w64 ∧ c = .c32) := (lanesRefused_iff w c).not.mpr (Nat.not_lt.mpr h)
  completesWith_outputsOf (.packLanes w c) (decide_eq_false haccepted) rfl nofun s

theorem resultR_packLanes {w : LaneWidth} {c : ContainerWidth} (h : w.bits ≤ c.bits) (s : State) :
    resultR (.packLanes w c) s = some (driveR (packSlots w c s.ports.lin)) :=
  resultR_of_completesWith (packLanes_completesWith h s)

theorem resultR_of_faultsWith {i : Instr} {s : State} {f : FaultReport} (h : faultsWith i s f) :
    resultR i s = none := by
  have hexec : exec i s = .next { s with out := some (.fault f) } := h
  simp only [resultR, hexec]

theorem resultLanes_of_faultsWith {i : Instr} {s : State} {f : FaultReport} (h : faultsWith i s f) :
    resultLanes i s = none := by
  have hexec : exec i s = .next { s with out := some (.fault f) } := h
  simp only [resultLanes, hexec]

/-! ## The place of a bit in its lane (R122) -/

/-- Lanes that fit fill the container, so every bit of it lies in one of them. -/
theorem div_lt_laneCount {w : LaneWidth} {c : ContainerWidth} (h : w.bits ≤ c.bits) {j : Nat} (hj : j < c.bits) :
    j / w.bits < laneCount w c :=
  Nat.div_lt_of_lt_mul (by rwa [bits_mul_laneCount h])

theorem lane_bit_lt_container {w : LaneWidth} {c : ContainerWidth} {i j : Nat} (hi : i < laneCount w c)
    (hj : j < w.bits) : i * w.bits + j < c.bits :=
  calc i * w.bits + j < i * w.bits + w.bits := Nat.add_lt_add_left hj _
    _ = (i + 1) * w.bits := (Nat.succ_mul i w.bits).symm
    _ ≤ c.bits := (Nat.le_div_iff_mul_le (laneWidth_bits_pos w)).mp hi

theorem getLsbD_getD_splitSlots (w : LaneWidth) (c : ContainerWidth) (v : Port) (i j : Nat) :
    ((splitSlots w c v).getD i 0#64).getLsbD j =
      (decide (i < laneCount w c) && decide (j < w.bits) && v.getLsbD (i * w.bits + j)) := by
  rw [getD_splitSlots]
  by_cases hi : i < laneCount w c
  · rw [if_pos hi, BitVec.getLsbD_setWidth, getLsbD_laneOf]
    by_cases hj : j < w.bits
    · simp [hi, hj, Nat.lt_of_lt_of_le hj (laneWidth_bits_le w)]
    · simp [hj]
  · rw [if_neg hi, BitVec.getLsbD_zero, decide_eq_false hi, Bool.false_and, Bool.false_and]

theorem getLsbD_driveR_packSlots {w : LaneWidth} {c : ContainerWidth} (h : w.bits ≤ c.bits) (lin : Slots) (j : Nat) :
    (driveR (packSlots w c lin)).getLsbD j =
      (decide (j < c.bits) && (lin.getD (j / w.bits) 0#64).getLsbD (j % w.bits)) := by
  have hlane : j % w.bits < w.bits := Nat.mod_lt j (laneWidth_bits_pos w)
  rw [getLsbD_driveR, packSlots, getLsbD_concatLanes (laneWidth_bits_pos w), bits_mul_laneCount h, getLsbD_slotBits,
    decide_eq_true hlane]
  by_cases hj : j < c.bits
  · simp [hj, Nat.lt_of_lt_of_le hj (containerWidth_bits_le c)]
  · simp [hj]

/-! ## Round trips (R125) -/

theorem getLsbD_pack_split {w : LaneWidth} {c : ContainerWidth} (h : w.bits ≤ c.bits) (v : Port) {j : Nat}
    (hj : j < c.bits) : (driveR (packSlots w c (splitSlots w c v))).getLsbD j = v.getLsbD j := by
  rw [getLsbD_driveR_packSlots h, getLsbD_getD_splitSlots, Nat.div_add_mod', decide_eq_true hj,
    decide_eq_true (div_lt_laneCount h hj), decide_eq_true (Nat.mod_lt j (laneWidth_bits_pos w))]
  rfl

theorem getD_split_pack {w : LaneWidth} {c : ContainerWidth} (h : w.bits ≤ c.bits) (lin : Slots) {i : Nat}
    (hi : i < laneCount w c) :
    (splitSlots w c (driveR (packSlots w c lin))).getD i 0#64 =
      BitVec.ofNat 64 ((lin.getD i 0#64).toNat % 2 ^ w.bits) := by
  apply BitVec.eq_of_getLsbD_eq
  intro j hslot
  rw [getLsbD_getD_splitSlots, getLsbD_driveR_packSlots h, BitVec.getLsbD_ofNat, Nat.testBit_mod_two_pow,
    BitVec.testBit_toNat, decide_eq_true hi, decide_eq_true hslot]
  by_cases hj : j < w.bits
  · have hquot : (i * w.bits + j) / w.bits = i := by
      rw [Nat.mul_comm, Nat.mul_add_div (laneWidth_bits_pos w), Nat.div_eq_of_lt hj, Nat.add_zero]
    have hrem : (i * w.bits + j) % w.bits = j := Nat.mul_add_mod_of_lt hj
    simp [hquot, hrem, hj, lane_bit_lt_container hi hj]
  · simp [hj]

/-! ## The D registers of a Q container (R121, R126) -/

theorem toNat_qContainer (dOdd dEven : BitVec 64) :
    (qContainer dOdd dEven).toNat = dOdd.toNat * 2 ^ 64 + dEven.toNat := by
  rw [qContainer, BitVec.toNat_append, ← Nat.shiftLeft_add_eq_or_of_lt dEven.isLt, Nat.shiftLeft_eq]

theorem laneOf_qContainer_zero (dOdd dEven : BitVec 64) : laneOf 64 (qContainer dOdd dEven) 0 = dEven :=
  BitVec.extractLsb'_append_eq_right

theorem laneOf_qContainer_one (dOdd dEven : BitVec 64) : laneOf 64 (qContainer dOdd dEven) 1 = dOdd :=
  BitVec.extractLsb'_append_eq_left

/-- A lane of width 64 fills its slot. -/
theorem getD_splitSlots_w64 {c : ContainerWidth} (v : Port) {i : Nat} (hi : i < laneCount .w64 c) :
    (splitSlots .w64 c v).getD i 0#64 = laneOf 64 v i := by
  rw [getD_splitSlots, if_pos hi]
  exact BitVec.setWidth_eq _

/-- Two slots packed at 64 bits are the container of R121: `concatLanes` joins them as `D(2q+1) ++ D(2q)`. -/
theorem driveR_packSlots_w64_c128 (lin : Slots) :
    driveR (packSlots .w64 .c128 lin) = qContainer (lin.getD 1 0#64) (lin.getD 0 0#64) := by
  apply BitVec.eq_of_getLsbD_eq
  intro j hj
  rw [getLsbD_driveR_packSlots (by decide), ContainerWidth.bits, LaneWidth.bits, decide_eq_true hj, Bool.true_and,
    qContainer, BitVec.getLsbD_append]
  by_cases hlow : j < 64
  · rw [if_pos hlow, Nat.div_eq_of_lt hlow, Nat.mod_eq_of_lt hlow]
  · rw [if_neg hlow, show j / 64 = 1 by omega, show j % 64 = j - 64 by omega]

/-! ## Settled statements -/

/-- Settles O33: the word's number, the refusal where `W > C`, and the bits of the slots. -/
theorem splitLanesCommand : Obligations.SplitLanesCommand := by
  unfold Obligations.SplitLanesCommand
  intro w c s
  exact ⟨toNat_encode rfl, fun h => splitLanes_faultsWith h s,
    fun h => ⟨_, splitLanes_completesWith h s, getLsbD_getD_splitSlots w c s.ports.a⟩⟩

/-- Settles O34: the word's number, the refusal where `W > C`, and the bits of the container. -/
theorem packLanesCommand : Obligations.PackLanesCommand := by
  unfold Obligations.PackLanesCommand
  intro w c s
  exact ⟨toNat_encode rfl, fun h => packLanes_faultsWith h s,
    fun h => ⟨_, packLanes_completesWith h s, getLsbD_driveR_packSlots h s.ports.lin⟩⟩

/-- Settles O35: bit `j` of the container is bit `j % W` of lane `j / W`, read in both directions; where `W > C` both
commands fault. -/
theorem splitAndPackRoundTrip : Obligations.SplitAndPackRoundTrip := by
  unfold Obligations.SplitAndPackRoundTrip
  intro w c s
  refine ⟨fun h => ⟨?packAfterSplit, ?splitAfterPack⟩, fun h => ?refused⟩
  case packAfterSplit =>
    exact ⟨_, _, resultLanes_splitLanes h s, resultR_packLanes h _, fun j hj => getLsbD_pack_split h s.ports.a hj⟩
  case splitAfterPack =>
    exact ⟨_, _, resultR_packLanes h s, resultLanes_splitLanes h _, fun i hi => getD_split_pack h s.ports.lin hi⟩
  case refused =>
    exact ⟨resultLanes_of_faultsWith (splitLanes_faultsWith h s), resultR_of_faultsWith (packLanes_faultsWith h s)⟩

/-- Settles O36: the two lanes of width 64 of a Q container are its D registers. -/
theorem qAndDAlias : Obligations.QAndDAlias := by
  unfold Obligations.QAndDAlias
  intro dOdd dEven s
  have hfits : LaneWidth.w64.bits ≤ ContainerWidth.c128.bits := by decide
  refine ⟨fun ha => ⟨_, resultLanes_splitLanes hfits s, ?_, ?_⟩, fun heven hodd => ?_, toNat_qContainer dOdd dEven⟩
  · rw [ha, getD_splitSlots_w64 _ (by decide), laneOf_qContainer_zero]
  · rw [ha, getD_splitSlots_w64 _ (by decide), laneOf_qContainer_one]
  · rw [resultR_packLanes hfits, driveR_packSlots_w64_c128, heven, hodd]

end Sys2Proof.Machine
end

section
/-! PROOFS. The clamped results of the saturating commands, the flag they feed, and the statements of
spec/42_saturating.md. -/

namespace Sys2Proof.Machine

/-! ## Operands and ranges as the statements write them (R140, R141) -/

theorem operand_eq_fieldValue (g : Signedness) (w : LaneWidth) (v : Port) : operand g w v = fieldValue g w.bits v := by
  cases g with
  | unsigned => exact (fieldValue_unsigned w.bits v).symm
  | signed => exact (fieldValue_signed (laneWidth_bits_pos w) v).symm

theorem minValue_eq_lowest (g : Signedness) (w : LaneWidth) : minValue g w = lowest g w := by
  cases g <;> cases w <;> rfl

theorem maxValue_eq_highest (g : Signedness) (w : LaneWidth) : maxValue g w = highest g w := by
  cases g <;> cases w <;> rfl

theorem lowest_nonpos (g : Signedness) (w : LaneWidth) : lowest g w ≤ 0 := by
  cases g <;> cases w <;> decide

theorem highest_pos (g : Signedness) (w : LaneWidth) : 0 < highest g w := by
  cases g <;> cases w <;> decide

/-- The signed range reaches one further below zero than above it (R140). -/
theorem lowest_signed (w : LaneWidth) : lowest .signed w = -highest .signed w - 1 := by
  cases w <;> rfl

/-! ## The clamped result (R142 to R146) -/

theorem saturate_eq (g : Signedness) (w : LaneWidth) (t : Int) :
    saturate g w t = if t < lowest g w then lowest g w else if highest g w < t then highest g w else t := by
  rw [saturate, clamp, minValue_eq_lowest, maxValue_eq_highest]

theorem satFlag_iff_ne (g : Signedness) (w : LaneWidth) (t : Int) : satFlag g w t = true ↔ saturate g w t ≠ t :=
  decide_eq_true_iff

theorem saturate_of_below {g : Signedness} {w : LaneWidth} {t : Int} (h : t < lowest g w) :
    saturate g w t = lowest g w := by
  rw [saturate_eq, if_pos h]

theorem saturate_of_above {g : Signedness} {w : LaneWidth} {t : Int} (h : highest g w < t) :
    saturate g w t = highest g w := by
  have := lowest_nonpos g w
  have := highest_pos g w
  rw [saturate_eq, if_neg (by omega), if_pos h]

theorem saturate_of_inside {g : Signedness} {w : LaneWidth} {t : Int} (hlo : lowest g w ≤ t) (hhi : t ≤ highest g w) :
    saturate g w t = t := by
  rw [saturate_eq, if_neg (by omega), if_neg (by omega)]

/-- `SAT` is 1 exactly outside the range (R144). -/
theorem satFlag_iff_outside (g : Signedness) (w : LaneWidth) (t : Int) :
    satFlag g w t = true ↔ t < lowest g w ∨ highest g w < t := by
  have hcases := saturate_cases g w t
  rw [minValue_eq_lowest, maxValue_eq_highest] at hcases
  rcases hcases with ⟨hlow, -, hsat⟩ | ⟨hhigh, -, hsat⟩ | ⟨hlo, hhi, -, hsat⟩
  · exact iff_of_true hsat (.inl hlow)
  · exact iff_of_true hsat (.inr hhigh)
  · exact iff_of_false (by simp [hsat]) (by omega)

theorem saturate_mem_range (g : Signedness) (w : LaneWidth) (t : Int) :
    lowest g w ≤ saturate g w t ∧ saturate g w t ≤ highest g w := by
  have hcases := saturate_cases g w t
  have hrange := minValue_le_maxValue g w
  rw [minValue_eq_lowest, maxValue_eq_highest] at hcases hrange
  omega

/-- The result on `R` reads as the clamped value (R9, R141). -/
theorem fieldValue_saturatedOutputs (g : Signedness) (w : LaneWidth) (t : Int) :
    fieldValue g w.bits (saturatedOutputs g w t).r = saturate g w t := by
  obtain ⟨hlo, hhi⟩ := saturate_mem_range g w t
  rw [← minValue_eq_lowest] at hlo
  rw [← maxValue_eq_highest] at hhi
  rw [← operand_eq_fieldValue, saturatedOutputs, read_enc g w hlo hhi]

/-! ## What the two commands complete with -/

/-- `t` is the exact result of the saturating command `i` on these ports: R142's sum or R143's difference. -/
def IsExactResult (i : Instr) (w : LaneWidth) (g : Signedness) (p : Ports) (t : Int) : Prop :=
  (i = .saturatingAdd w g ∧ t = fieldValue g w.bits p.a + fieldValue g w.bits p.b) ∨
  (i = .saturatingSub w g ∧ t = fieldValue g w.bits p.a - fieldValue g w.bits p.b)

/-- A saturating command refuses no width (R202), so it completes, and leaves `QC OR SAT` (R145). -/
theorem completesWith_of_saturates {i : Instr} (h : saturates i = true) (s : State) :
    completesWith i s (s.qc || (outputsOf i s.qc s.ports).sat) (outputsOf i s.qc s.ports) := by
  have haccepted : widthRefused i = false := by
    by_contra hr
    exact absurd h (by simp [saturates_of_refused (Bool.eq_true_of_not_eq_false hr)])
  rw [← qcAfter_of_saturates h]
  exact exec_of_accepted haccepted s

section
variable {i : Instr} {w : LaneWidth} {g : Signedness} {s : State} {t : Int}

theorem completesWith_of_exactResult (h : IsExactResult i w g s.ports t) :
    completesWith i s (s.qc || satFlag g w t) (saturatedOutputs g w t) := by
  rcases h with ⟨rfl, rfl⟩ | ⟨rfl, rfl⟩ <;> simp only [← operand_eq_fieldValue]
  · exact completesWith_of_saturates (i := .saturatingAdd w g) rfl s
  · exact completesWith_of_saturates (i := .saturatingSub w g) rfl s

/-- The result in the words of R142 and R143. -/
theorem exists_clamped_result (h : IsExactResult i w g s.ports t) :
    ∃ r sat, completesWith i s (s.qc || sat) { r := r, lout := zeroSlots, sat := sat } ∧ r.toNat < 2 ^ w.bits ∧
      fieldValue g w.bits r =
        (if t < lowest g w then lowest g w else if highest g w < t then highest g w else t) ∧
      (sat = true ↔ fieldValue g w.bits r ≠ t) := by
  have hvalue := fieldValue_saturatedOutputs g w t
  refine ⟨(saturatedOutputs g w t).r, satFlag g w t, completesWith_of_exactResult h, toNat_driveR_lt _,
    hvalue.trans (saturate_eq g w t), ?_⟩
  rw [hvalue, satFlag_iff_ne]

/-- An exact result outside the range sets `SAT` and `QC`, and its clamped value is delivered. -/
theorem completes_saturated (h : IsExactResult i w g s.ports t) (hout : t < lowest g w ∨ highest g w < t) :
    ∃ r, completesWith i s true { r := r, lout := zeroSlots, sat := true } ∧
      fieldValue g w.bits r = saturate g w t := by
  have hcompletes := completesWith_of_exactResult h
  rw [saturatedOutputs, (satFlag_iff_outside g w t).mpr hout, Bool.or_true] at hcompletes
  exact ⟨_, hcompletes, fieldValue_saturatedOutputs g w t⟩

/-- An exact result inside the range is delivered, and `QC` is kept. -/
theorem completes_exactly (h : IsExactResult i w g s.ports t) (hlo : lowest g w ≤ t) (hhi : t ≤ highest g w) :
    ∃ r, completesWith i s s.qc { r := r, lout := zeroSlots, sat := false } ∧ fieldValue g w.bits r = t := by
  have hflag : satFlag g w t = false := by
    rw [Bool.eq_false_iff, ne_eq, satFlag_iff_outside]; omega
  have hcompletes := completesWith_of_exactResult h
  rw [saturatedOutputs, hflag, Bool.or_false] at hcompletes
  exact ⟨_, hcompletes, (fieldValue_saturatedOutputs g w t).trans (saturate_of_inside hlo hhi)⟩

end

/-! ## `QC` over runs (R145, R148) -/

/-- Away from `writeQC` a command leaves `QC OR SAT`: what does not saturate has `SAT = 0` (R21, R25). -/
theorem qcAfter_eq_or_sat {i : Instr} (hw : i ≠ .writeQC) (qc : Bool) (p : Ports) :
    qcAfter i qc p = (qc || (outputsOf i qc p).sat) := by
  cases hs : saturates i with
  | true => exact qcAfter_of_saturates hs qc p
  | false => rw [qcAfter_of_not_writer hs hw, outputsOf_sat_of_not_saturates hs, Bool.or_false]

/-- A word that is not `writeQC` leaves `QC OR SAT`, a fault's `SAT` being 0 (R201). -/
theorem qc_of_command {qc qc' : Bool} {p : Ports} {o : CommandOutcome} (hw : decode p.cmd ≠ .ok .writeQC)
    (h : command qc p = some (qc', o)) : qc' = (qc || o.saturated) := by
  cases hd : decode p.cmd with
  | error why =>
    cases (command_of_reserved hd qc).symm.trans h
    exact (Bool.or_false _).symm
  | ok i =>
    cases hr : widthRefused i with
    | true =>
      obtain ⟨info, hinfo⟩ := offendingValues_of_refused hr
      cases (command_of_refused hd hr hinfo qc).symm.trans h
      exact (Bool.or_false _).symm
    | false =>
      cases (command_of_accepted hd hr qc).symm.trans h
      exact qcAfter_eq_or_sat (fun hi => hw (hd.trans (congrArg Except.ok hi))) qc p

/-- `QC = 1` stays 1 over steps that run no `writeQC`, idle steps among them. -/
theorem runSteps_keeps_qc {k : Nat} {s t : State} (hrun : runSteps k s = .next t) (hqc : s.qc = true)
    (hw : ∀ p ∈ s.pending.take k, decode p.cmd ≠ .ok .writeQC) : t.qc = true := by
  induction k generalizing s with
  | zero => cases hrun; exact hqc
  | succ k ih =>
    cases hp : s.pending with
    | nil => cases (runSteps_of_nil hp k).symm.trans hrun; exact hqc
    | cons p rest =>
      rw [hp, List.take_succ_cons] at hw
      obtain ⟨hfirst, hrest⟩ := List.forall_mem_cons.mp hw
      obtain ⟨qc, o, hcmd, hstep⟩ := stepIsFunctionOfQCAndPorts s p rest hp
      have hkept : qc = true := by rw [qc_of_command hfirst hcmd, hqc, Bool.true_or]
      rw [runSteps_of_step hstep] at hrun
      exact ih hrun hkept hrest

/-! ## Settled statements -/

/-- Settles O53, by induction on the number of steps, each of which leaves `QC OR SAT`. -/
theorem qcIsSticky : Obligations.QCIsSticky := by
  unfold Obligations.QCIsSticky
  exact ⟨fun i s h => ⟨_, completesWith_of_saturates h s⟩, fun k s t => runSteps_keeps_qc⟩

/-- Settles O38: the word's number, and `exists_clamped_result` for the exact sum. -/
theorem saturatingAddCommand : Obligations.SaturatingAddCommand := by
  unfold Obligations.SaturatingAddCommand
  intro w g s
  exact ⟨toNat_encode rfl, exists_clamped_result (.inl ⟨rfl, rfl⟩)⟩

/-- Settles O39: the word's number, and `exists_clamped_result` for the exact difference. -/
theorem saturatingSubCommand : Obligations.SaturatingSubCommand := by
  unfold Obligations.SaturatingSubCommand
  intro w g s
  exact ⟨toNat_encode rfl, exists_clamped_result (.inr ⟨rfl, rfl⟩)⟩

/-- Settles O40, from `satFlag_iff_outside`. -/
theorem saturationFlagExactly : Obligations.SaturationFlagExactly := by
  unfold Obligations.SaturationFlagExactly
  intro w g s i t h
  exact ⟨_, _, completesWith_of_exactResult h, satFlag_iff_outside g w t⟩

/-- Settles O41: the clamped value lies in the range, and differs from the exact one only where `SAT` is 1. -/
theorem saturatedResultIsBounded : Obligations.SaturatedResultIsBounded := by
  unfold Obligations.SaturatedResultIsBounded
  intro w g s i t h
  obtain ⟨hlo, hhi⟩ := saturate_mem_range g w t
  refine ⟨_, _, completesWith_of_exactResult h, ?_⟩
  rw [fieldValue_saturatedOutputs]
  exact ⟨hlo, hhi, fun hflag => not_not.mp (of_decide_eq_false hflag)⟩

/-- Settles O42: the exact results are max + 1, max, 2 · min and 2 · max. -/
theorem exactBoundaryCases : Obligations.ExactBoundaryCases := by
  unfold Obligations.ExactBoundaryCases
  intro w s x y
  have hsigned := lowest_signed w
  have hpos := highest_pos .signed w
  have hposUnsigned := highest_pos .unsigned w
  refine ⟨fun hx hy => ?zeroSubMin, fun hx hy => ?minusOneSubMin, fun hx hy => ?minAddMin, fun hx hy => ?maxAddMax⟩
  case zeroSubMin =>
    have hexact : highest .signed w < x - y := by omega
    rw [← saturate_of_above hexact]
    exact completes_saturated (.inr ⟨rfl, rfl⟩) (.inr hexact)
  case minusOneSubMin =>
    have hexact : x - y = highest .signed w := by omega
    rw [← hexact]
    exact completes_exactly (.inr ⟨rfl, rfl⟩) (by omega) (by omega)
  case minAddMin =>
    have hexact : x + y < lowest .signed w := by omega
    rw [← saturate_of_below hexact]
    exact completes_saturated (.inl ⟨rfl, rfl⟩) (.inl hexact)
  case maxAddMax =>
    have hexact : highest .unsigned w <
        fieldValue .unsigned w.bits s.ports.a + fieldValue .unsigned w.bits s.ports.b := by omega
    rw [← saturate_of_above hexact]
    exact completes_saturated (.inl ⟨rfl, rfl⟩) (.inr hexact)

/-- Settles O54, by induction on the list, since each command leaves `QC OR SAT`. -/
theorem finalQCIsOrOfSaturations : Obligations.FinalQCIsOrOfSaturations := by
  unfold Obligations.FinalQCIsOrOfSaturations
  intro qc ps hw
  induction ps generalizing qc with
  | nil => exact (Bool.or_false qc).symm
  | cons p rest ih =>
    obtain ⟨hfirst, hrest⟩ := List.forall_mem_cons.mp hw
    obtain ⟨qc', o, hcmd, -⟩ :=
      stepIsFunctionOfQCAndPorts { qc := qc, ports := idlePorts, out := none, pending := [p] } p [] rfl
    rw [observe_of_command hcmd, List.any_cons, ← Bool.or_assoc, ← qc_of_command hfirst hcmd]
    exact ih qc' hrest

end Sys2Proof.Machine
end

section
/-! PROOFS. The IEEE-754 readings of a pattern, said once for any format, the results of the reinterpretation and
default-NaN commands, and the statements of spec/43_float_bits.md. -/

namespace Sys2Proof.Machine

/-! ## The rows of the tables (R162, R164), by exponent and fraction -/

section
variable {fmt : FloatFormat} {e f : Nat}

theorem readFields_zero (neg : Bool) (he : e = 0) (hf : f = 0) : readFields fmt neg e f = .zero neg := by
  simp only [readFields, if_pos he, if_pos hf]

theorem readFields_subnormal (neg : Bool) (he : e = 0) (hf : f ≠ 0) :
    readFields fmt neg e f = .subnormal neg f := by
  simp only [readFields, if_pos he, if_neg hf]

theorem readFields_normal (neg : Bool) (he : e ≠ 0) (hlt : e < 2 ^ fmt.expBits - 1) :
    readFields fmt neg e f = .normal neg e f := by
  simp only [readFields, if_neg he, if_pos hlt]

theorem readFields_infinity (neg : Bool) (he : e ≠ 0) (htop : e = 2 ^ fmt.expBits - 1) (hf : f = 0) :
    readFields fmt neg e f = .infinity neg := by
  simp only [readFields, if_neg he, if_neg htop.not_lt, if_pos hf]

theorem readFields_quietNaN (neg : Bool) (he : e ≠ 0) (htop : e = 2 ^ fmt.expBits - 1) (hf : f ≠ 0)
    (hquiet : f.testBit (fmt.fracBits - 1) = true) :
    readFields fmt neg e f = .quietNaN neg (f % 2 ^ (fmt.fracBits - 1)) := by
  simp only [readFields, if_neg he, if_neg htop.not_lt, if_neg hf, if_pos hquiet]

theorem readFields_signallingNaN (neg : Bool) (he : e ≠ 0) (htop : e = 2 ^ fmt.expBits - 1) (hf : f ≠ 0)
    (hquiet : f.testBit (fmt.fracBits - 1) = false) :
    readFields fmt neg e f = .signallingNaN neg (f % 2 ^ (fmt.fracBits - 1)) := by
  simp only [readFields, if_neg he, if_neg htop.not_lt, if_neg hf, if_neg (Bool.eq_false_iff.mp hquiet)]

end

/-! ## The values of the finite rows -/

theorem signedBy_eq_mul (neg : Bool) (m : Int) : signedBy neg m = (if neg then -1 else 1) * m := by
  cases neg
  · exact (Int.one_mul m).symm
  · exact (Int.neg_one_mul m).symm

/-- `bias + fracBits`: the exponent of a normal pattern's value is `e` less this number, 150 for binary32 and 1075 for
binary64. -/
def FloatFormat.exponentShift (fmt : FloatFormat) : Int := 2 ^ (fmt.expBits - 1) + fmt.fracBits - 1

theorem finiteValue_subnormal (fmt : FloatFormat) (neg : Bool) (f : Nat) :
    finiteValue fmt (.subnormal neg f) = some ((if neg then -1 else 1) * (f : Int), 1 - fmt.exponentShift) := by
  have hshift : (2 - 2 ^ (fmt.expBits - 1) - fmt.fracBits : Int) = 1 - fmt.exponentShift := by
    rw [FloatFormat.exponentShift]; omega
  rw [finiteValue, signedBy_eq_mul, hshift]

theorem finiteValue_normal (fmt : FloatFormat) (neg : Bool) (e f : Nat) :
    finiteValue fmt (.normal neg e f) =
      some ((if neg then -1 else 1) * (2 ^ fmt.fracBits + (f : Int)), e - fmt.exponentShift) := by
  have hshift : (e + 1 - 2 ^ (fmt.expBits - 1) - fmt.fracBits : Int) = e - fmt.exponentShift := by
    rw [FloatFormat.exponentShift]; omega
  rw [finiteValue, signedBy_eq_mul, hshift]

/-! ## The quiet bit and the payload below it -/

/-- A fraction without its top bit is its payload. -/
theorem payload_eq_fraction {n f : Nat} (hn : 0 < n) (hf : f < 2 ^ n) (hquiet : f.testBit (n - 1) = false) :
    f % 2 ^ (n - 1) = f := by
  apply Nat.mod_eq_of_lt
  apply Nat.lt_pow_two_of_testBit
  intro i hi
  rcases Nat.eq_or_lt_of_le hi with rfl | hgt
  · exact hquiet
  · exact Nat.testBit_lt_two_pow (Nat.lt_of_lt_of_le hf (Nat.pow_le_pow_right (by decide) (by omega)))

/-- A fraction with its top bit is that bit over its payload. -/
theorem quiet_payload_eq_fraction {n f : Nat} (hn : 0 < n) (hf : f < 2 ^ n) (hquiet : f.testBit (n - 1) = true) :
    2 ^ (n - 1) + f % 2 ^ (n - 1) = f := by
  have hge : 2 ^ (n - 1) ≤ f := Nat.ge_two_pow_of_testBit hquiet
  have hdouble : 2 ^ (n - 1) + 2 ^ (n - 1) = 2 ^ n := Nat.two_pow_pred_add_two_pow_pred hn
  rw [Nat.mod_eq_sub_mod hge, Nat.mod_eq_of_lt (by omega)]
  omega

/-! ## A pattern in a format (R161, R163) -/

/-- The reading of a pattern in a format, with its fields where R161 and R163 place them. -/
def readPattern (fmt : FloatFormat) {n : Nat} (b : BitVec n) : FloatReading :=
  readFields fmt (b.getLsbD (fmt.fracBits + fmt.expBits)) (b.extractLsb' fmt.fracBits fmt.expBits).toNat
    (b.extractLsb' 0 fmt.fracBits).toNat

theorem readPattern_binary32 (b : BitVec 32) : readPattern binary32 b = readBinary32 b := rfl

theorem readPattern_binary64 (b : BitVec 64) : readPattern binary64 b = readBinary64 b := rfl

/-- The fields as the numbers of the tables. -/
theorem readPattern_eq (fmt : FloatFormat) {n : Nat} (b : BitVec n) :
    readPattern fmt b = readFields fmt (b.getLsbD (fmt.fracBits + fmt.expBits))
      (b.toNat / 2 ^ fmt.fracBits % 2 ^ fmt.expBits) (b.toNat % 2 ^ fmt.fracBits) := by
  rw [readPattern, BitVec.extractLsb'_toNat, BitVec.extractLsb'_toNat, Nat.shiftRight_eq_div_pow, Nat.shiftRight_zero]

/-- What the tables of R162 and R164 say of a pattern, in any format. -/
def ReadingTable (fmt : FloatFormat) {n : Nat} (b : BitVec n) : Prop :=
  let neg := b.getLsbD (fmt.fracBits + fmt.expBits)
  let e := b.toNat / 2 ^ fmt.fracBits % 2 ^ fmt.expBits
  let f := b.toNat % 2 ^ fmt.fracBits
  let payload := b.toNat % 2 ^ (fmt.fracBits - 1)
  (e = 0 → f = 0 → readPattern fmt b = .zero neg ∧ finiteValue fmt (readPattern fmt b) = some (0, 0)) ∧
  (e = 0 → f ≠ 0 → readPattern fmt b = .subnormal neg f ∧
    finiteValue fmt (readPattern fmt b) = some ((if neg then -1 else 1) * (f : Int), 1 - fmt.exponentShift)) ∧
  (1 ≤ e → e ≤ 2 ^ fmt.expBits - 2 → readPattern fmt b = .normal neg e f ∧
    finiteValue fmt (readPattern fmt b) =
      some ((if neg then -1 else 1) * (2 ^ fmt.fracBits + (f : Int)), (e : Int) - fmt.exponentShift)) ∧
  (e = 2 ^ fmt.expBits - 1 → f = 0 → readPattern fmt b = .infinity neg) ∧
  (e = 2 ^ fmt.expBits - 1 → f ≠ 0 → b.getLsbD (fmt.fracBits - 1) = true →
    readPattern fmt b = .quietNaN neg payload) ∧
  (e = 2 ^ fmt.expBits - 1 → f ≠ 0 → b.getLsbD (fmt.fracBits - 1) = false →
    readPattern fmt b = .signallingNaN neg payload ∧ payload ≠ 0)

/-- The table holds of every pattern where the exponent field and the fraction field are not empty. -/
theorem readingTable (fmt : FloatFormat) (hexp : 0 < fmt.expBits) (hfrac : 0 < fmt.fracBits) {n : Nat} (b : BitVec n) :
    ReadingTable fmt b := by
  have htop : 2 ≤ 2 ^ fmt.expBits := Nat.le_pow hexp
  have hpayload : b.toNat % 2 ^ fmt.fracBits % 2 ^ (fmt.fracBits - 1) = b.toNat % 2 ^ (fmt.fracBits - 1) :=
    Nat.mod_mod_of_dvd _ (Nat.pow_dvd_pow 2 (Nat.sub_le _ 1))
  have hquiet : (b.toNat % 2 ^ fmt.fracBits).testBit (fmt.fracBits - 1) = b.getLsbD (fmt.fracBits - 1) := by
    rw [Nat.testBit_mod_two_pow, decide_eq_true (Nat.sub_one_lt_of_lt hfrac), Bool.true_and,
      BitVec.testBit_toNat]
  unfold ReadingTable
  rw [readPattern_eq]
  refine ⟨fun he hf => ?zero, fun he hf => ?subnormal, fun hpos hle => ?normal, fun he hf => ?infinity,
    fun he hf hbit => ?quietNaN, fun he hf hbit => ?signallingNaN⟩
  case zero =>
    rw [readFields_zero _ he hf]
    exact ⟨rfl, rfl⟩
  case subnormal =>
    rw [readFields_subnormal _ he hf]
    exact ⟨rfl, finiteValue_subnormal ..⟩
  case normal =>
    rw [readFields_normal _ (by omega) (by omega)]
    exact ⟨rfl, finiteValue_normal ..⟩
  case infinity =>
    exact readFields_infinity _ (by omega) he hf
  case quietNaN =>
    rw [readFields_quietNaN _ (by omega) he hf (hquiet.trans hbit), hpayload]
  case signallingNaN =>
    rw [readFields_signallingNaN _ (by omega) he hf (hquiet.trans hbit), hpayload]
    refine ⟨rfl, ?_⟩
    rwa [← hpayload, payload_eq_fraction hfrac (Nat.mod_lt _ (Nat.two_pow_pos _)) (hquiet.trans hbit)]

/-! ## The pattern of a reading

A reading keeps its sign, exponent and fraction, and these are all the bits there are. -/

/-- The sign, the exponent and the fraction that a reading came from. -/
def fieldsOfReading (fmt : FloatFormat) : FloatReading → Bool × Nat × Nat
  | .zero neg => (neg, 0, 0)
  | .subnormal neg f => (neg, 0, f)
  | .normal neg e f => (neg, e, f)
  | .infinity neg => (neg, 2 ^ fmt.expBits - 1, 0)
  | .quietNaN neg payload => (neg, 2 ^ fmt.expBits - 1, 2 ^ (fmt.fracBits - 1) + payload)
  | .signallingNaN neg payload => (neg, 2 ^ fmt.expBits - 1, payload)

theorem fieldsOfReading_readFields {fmt : FloatFormat} (hfrac : 0 < fmt.fracBits) (neg : Bool) {e f : Nat}
    (he : e < 2 ^ fmt.expBits) (hf : f < 2 ^ fmt.fracBits) :
    fieldsOfReading fmt (readFields fmt neg e f) = (neg, e, f) := by
  by_cases hzero : e = 0
  · subst hzero
    by_cases hf0 : f = 0
    · rw [readFields_zero neg rfl hf0, fieldsOfReading, hf0]
    · rw [readFields_subnormal neg rfl hf0, fieldsOfReading]
  by_cases hlt : e < 2 ^ fmt.expBits - 1
  · rw [readFields_normal neg hzero hlt, fieldsOfReading]
  have htop : e = 2 ^ fmt.expBits - 1 := by omega
  by_cases hf0 : f = 0
  · rw [readFields_infinity neg hzero htop hf0, fieldsOfReading, ← htop, hf0]
  cases hquiet : f.testBit (fmt.fracBits - 1)
  · rw [readFields_signallingNaN neg hzero htop hf0 hquiet, fieldsOfReading, ← htop,
      payload_eq_fraction hfrac hf hquiet]
  · rw [readFields_quietNaN neg hzero htop hf0 hquiet, fieldsOfReading, ← htop,
      quiet_payload_eq_fraction hfrac hf hquiet]

/-- The sign bit, the exponent field and the fraction field are the whole pattern. -/
theorem eq_of_fields_eq {k m n : Nat} (hn : n = k + m + 1) {b b' : BitVec n}
    (hsign : b.getLsbD (k + m) = b'.getLsbD (k + m)) (hexp : b.extractLsb' k m = b'.extractLsb' k m)
    (hfrac : b.extractLsb' 0 k = b'.extractLsb' 0 k) : b = b' := by
  apply BitVec.eq_of_getLsbD_eq
  intro j hj
  rcases Nat.lt_trichotomy j (k + m) with hlow | rfl | hhigh
  · by_cases hj : j < k
    · simpa [BitVec.getLsbD_extractLsb', hj] using congrArg (·.getLsbD j) hfrac
    · have hfield : j - k < m := by omega
      simpa [BitVec.getLsbD_extractLsb', hfield, Nat.add_sub_of_le (Nat.not_lt.mp hj)]
        using congrArg (·.getLsbD (j - k)) hexp
  · exact hsign
  · omega

theorem readPattern_injective {fmt : FloatFormat} (hfrac : 0 < fmt.fracBits) {n : Nat}
    (hn : n = fmt.fracBits + fmt.expBits + 1) {b b' : BitVec n} (h : readPattern fmt b = readPattern fmt b') :
    b = b' := by
  have hfields := congrArg (fieldsOfReading fmt) h
  rw [readPattern, readPattern, fieldsOfReading_readFields hfrac _ (BitVec.isLt _) (BitVec.isLt _),
    fieldsOfReading_readFields hfrac _ (BitVec.isLt _) (BitVec.isLt _), Prod.mk.injEq, Prod.mk.injEq] at hfields
  obtain ⟨hsign, hexp, hfraction⟩ := hfields
  exact eq_of_fields_eq hn hsign (BitVec.eq_of_toNat_eq hexp) (BitVec.eq_of_toNat_eq hfraction)

/-! ## The reinterpretation commands (R165 to R169) -/

/-- The command delivers the low `n` bits of `A` on `R`, whatever they are. -/
def PassesLowBits (n : Nat) (i : Instr) : Prop :=
  ∀ s : State, completesWith i s s.qc (resultOnly (driveR (lowBits n s.ports.a)))

theorem bitsOfFloat32_passesLowBits : PassesLowBits 32 .bitsOfFloat32 := completesWith_outputsOf _ rfl rfl nofun

theorem float32OfBits_passesLowBits : PassesLowBits 32 .float32OfBits := completesWith_outputsOf _ rfl rfl nofun

theorem bitsOfDouble_passesLowBits : PassesLowBits 64 .bitsOfDouble := completesWith_outputsOf _ rfl rfl nofun

theorem doubleOfBits_passesLowBits : PassesLowBits 64 .doubleOfBits := completesWith_outputsOf _ rfl rfl nofun

theorem getLsbD_driveR_lowBits {n : Nat} (hn : n ≤ 128) (v : Port) (j : Nat) :
    (driveR (lowBits n v)).getLsbD j = (decide (j < n) && v.getLsbD j) := by
  rw [getLsbD_driveR, getLsbD_lowBits]
  by_cases hj : j < n
  · rw [decide_eq_true (Nat.lt_of_lt_of_le hj hn), Bool.true_and]
  · rw [decide_eq_false hj, Bool.false_and, Bool.and_false]

theorem lowBits_driveR_self {n : Nat} (hn : n ≤ 128) (v : BitVec n) : lowBits n (driveR v) = v := by
  rw [lowBits_driveR hn, BitVec.setWidth_eq]

/-- Of two commands that pass the low `n` bits, the second gives back the pattern the first was given. -/
theorem passesLowBits_roundTrip {n : Nat} (hn : n ≤ 128) {i i' : Instr} (hi : PassesLowBits n i)
    (hi' : PassesLowBits n i') {s : State} {b : BitVec n} (ha : s.ports.a = driveR b) :
    ∃ v, resultR i s = some v ∧ resultR i' (feedA v s) = some (driveR b) := by
  refine ⟨driveR b, ?_, ?_⟩
  · rw [resultR_of_completesWith (hi s), resultOnly, ha, lowBits_driveR_self hn]
  · rw [resultR_of_completesWith (hi' _), resultOnly, feedA, lowBits_driveR_self hn]

/-! ## Settled statements -/

/-- Settles O46: `readingTable` at binary32. -/
theorem binary32ReadingTable : Obligations.Binary32ReadingTable := by
  unfold Obligations.Binary32ReadingTable
  simp only [← readPattern_binary32]
  exact readingTable binary32 (by decide) (by decide)

/-- Settles O47: `readingTable` at binary64. -/
theorem binary64ReadingTable : Obligations.Binary64ReadingTable := by
  unfold Obligations.Binary64ReadingTable
  simp only [← readPattern_binary64]
  exact readingTable binary64 (by decide) (by decide)

/-- Settles O48: a reading gives its fields back, and they are the whole pattern. -/
theorem readingsDetermineThePattern : Obligations.ReadingsDetermineThePattern := by
  unfold Obligations.ReadingsDetermineThePattern
  simp only [← readPattern_binary32, ← readPattern_binary64]
  exact ⟨fun _ _ => readPattern_injective (by decide) rfl, fun _ _ => readPattern_injective (by decide) rfl⟩

/-- Settles O43: both commands deliver `A[31:0]`, which reads as what it was. -/
theorem float32Reinterpretation : Obligations.Float32Reinterpretation := by
  unfold Obligations.Float32Reinterpretation
  exact ⟨rfl, rfl, fun s => ⟨_, bitsOfFloat32_passesLowBits s, float32OfBits_passesLowBits s,
    getLsbD_driveR_lowBits (by decide) s.ports.a, congrArg readBinary32 (lowBits_driveR_self (by decide) _)⟩⟩

/-- Settles O44: both commands deliver `A[63:0]`, which reads as what it was. -/
theorem doubleReinterpretation : Obligations.DoubleReinterpretation := by
  unfold Obligations.DoubleReinterpretation
  exact ⟨rfl, rfl, fun s => ⟨_, bitsOfDouble_passesLowBits s, doubleOfBits_passesLowBits s,
    getLsbD_driveR_lowBits (by decide) s.ports.a, congrArg readBinary64 (lowBits_driveR_self (by decide) _)⟩⟩

/-- Settles O45, by `passesLowBits_roundTrip` for each pair in each order. -/
theorem reinterpretationIsExact : Obligations.ReinterpretationIsExact := by
  unfold Obligations.ReinterpretationIsExact
  exact fun s => ⟨
    fun _ => passesLowBits_roundTrip (by decide) float32OfBits_passesLowBits bitsOfFloat32_passesLowBits,
    fun _ => passesLowBits_roundTrip (by decide) bitsOfFloat32_passesLowBits float32OfBits_passesLowBits,
    fun _ => passesLowBits_roundTrip (by decide) doubleOfBits_passesLowBits bitsOfDouble_passesLowBits,
    fun _ => passesLowBits_roundTrip (by decide) bitsOfDouble_passesLowBits doubleOfBits_passesLowBits⟩

/-- Settles O49: the commands deliver their constants, and each constant stands in its table's quiet-NaN row. -/
theorem defaultNaNCommands : Obligations.DefaultNaNCommands := by
  unfold Obligations.DefaultNaNCommands
  exact ⟨rfl, rfl, by decide, by decide, fun s =>
    ⟨completesWith_outputsOf .defaultNaN32 rfl rfl nofun s, completesWith_outputsOf .defaultNaN64 rfl rfl nofun s⟩⟩

end Sys2Proof.Machine
end

section
/-! PROOFS. The two commands that give software access to `QC`, and the statements of spec/44_qc_access.md. -/

namespace Sys2Proof.Machine

/-- `writeQC` leaves `A[0]` in `QC` and delivers 0 on `R` (R191). -/
theorem writeQC_completesWith (s : State) :
    completesWith .writeQC s (s.ports.a.getLsbD 0) (resultOnly 0#128) :=
  exec_of_accepted rfl s

/-- A port's lowest bit tells whether its number is odd. -/
theorem getLsbD_zero_eq_decide_odd (v : Port) : v.getLsbD 0 = decide (v.toNat % 2 = 1) :=
  Nat.testBit_zero v.toNat

/-- Settles O50: the result is `QC` zero-extended, by `toNat_outputsOf_readQC`. -/
theorem readQCCommand : Obligations.ReadQCCommand := by
  unfold Obligations.ReadQCCommand
  exact ⟨rfl, fun s => ⟨_, completesWith_outputsOf .readQC rfl rfl nofun s,
    (toNat_outputsOf_readQC s.qc s.ports).trans (Bool.cond_eq_ite s.qc 1 0)⟩⟩

/-- Settles O51: the bit that `QC` takes is set exactly when the number on `A` is odd. -/
theorem writeQCCommand : Obligations.WriteQCCommand := by
  unfold Obligations.WriteQCCommand
  exact ⟨rfl, fun s => getLsbD_zero_eq_decide_odd s.ports.a ▸ writeQC_completesWith s⟩

end Sys2Proof.Machine
end

section
/-! PROOFS. Which outcome each kind of word has, its code on `FAULT`, and what a fault leaves to the next command: the
statements of spec/60_exceptions.md. -/

namespace Sys2Proof.Machine

/-! ## Codes on the `FAULT` port (R200) -/

@[simp] theorem faultCode_ok (x : Outputs) : (CommandOutcome.ok x).faultCode = 0 := rfl

@[simp] theorem faultCode_reservedEncoding (cmd : Word) :
    (CommandOutcome.fault (.reservedEncoding cmd)).faultCode = 1 := rfl

@[simp] theorem faultCode_invalidWidth (cmd : Word) (info : WidthInfo) :
    (CommandOutcome.fault (.invalidWidth cmd info)).faultCode = 2 := rfl

/-! ## Reserved words are not commands (R202, R204) -/

theorem not_reservedNumber_of_decode {cmd : Word} {i : Instr} (hd : decode cmd = .ok i) :
    ¬ reservedNumber cmd.toNat := by
  rw [← decode_error_iff_reservedNumber, decode_error_iff, not_not]
  exact ⟨i, hd⟩

/-! ## Settled statements -/

/-- Settles O24, by the three kinds of word: what `decode` and `widthRefused` say of the word decides the outcome, and
the outcome's code is one number. -/
theorem faultsExactly : Obligations.FaultsExactly := by
  unfold Obligations.FaultsExactly
  intro s p rest hp
  cases hd : decode p.cmd with
  | error why =>
    have hreserved : reservedNumber p.cmd.toNat := (decode_error_iff_reservedNumber p.cmd).mp ⟨why, hd⟩
    refine ⟨_, _, step_of_reserved hp hd, rfl, ?_⟩
    simp [hreserved]
  | ok i =>
    have hlegal := not_reservedNumber_of_decode hd
    cases hr : widthRefused i with
    | true =>
      obtain ⟨info, hinfo⟩ := offendingValues_of_refused hr
      refine ⟨_, _, step_of_refused hp hd hr hinfo, rfl, ?_⟩
      simp [hlegal, hr, hinfo]
    | false =>
      refine ⟨_, _, step_of_accepted hp hd hr, rfl, ?_⟩
      simp [hlegal, hr]

/-- Settles O26: of the two kinds of outcome in `step_determined`, the one that is a fault keeps `QC`. -/
theorem faultChangesNothing : Obligations.FaultChangesNothing := by
  unfold Obligations.FaultChangesNothing
  intro s t p rest f hp ht hfault
  obtain ⟨qc, o, hkind, hstep⟩ := step_determined s.qc p
  cases (hstep s rest rfl hp).symm.trans ht
  obtain ⟨x, rfl⟩ | ⟨g, rfl, rfl⟩ := hkind
  · cases hfault
  · cases hfault
    rfl

/-- Settles O27: the next step sees only `QC` and the waiting commands (O17), and a fault keeps `QC` (O26). -/
theorem nextCommandExecutesNormally : Obligations.NextCommandExecutesNormally := by
  unfold Obligations.NextCommandExecutesNormally
  intro s t p q rest hp ht
  have hwaiting : t.pending = q :: rest := by
    obtain ⟨qc, o, -, hstep⟩ := step_determined s.qc p
    cases (hstep s _ rfl hp).symm.trans ht
    rfl
  have hnext (u : State) (hqc : t.qc = u.qc) (hu : u.pending = q :: rest) : step t = step u :=
    unnamedInputBitsIgnored.2 t u q rest hqc hwaiting hu
  refine ⟨hnext _ rfl rfl, fun f hfault => ?_⟩
  have hreport := faultChangesNothing s t p (q :: rest) f hp ht hfault
  have hqc : t.qc = s.qc := by rw [hreport]
  exact ⟨hreport, hnext _ hqc rfl⟩

end Sys2Proof.Machine
end

section
/-! PROOFS. What stepping the machine shows of the observed run, and the state and the ports at reset: the statements
of spec/70_reset_and_hazards.md. -/

namespace Sys2Proof.Machine

/-- Settles O19: the outcome is the one `runSteps_shows_outcome` gives, and the first `k + 1` commands of the list lead
to the later ones waiting and to their observed `QC`. -/
theorem runShowsObservation : Obligations.RunShowsObservation := by
  unfold Obligations.RunShowsObservation
  intro s k hk
  obtain ⟨t, hrun, hshown⟩ := runSteps_shows_outcome s k
  obtain ⟨t', hrun', hpending, hqc⟩ := runSteps_through_append (List.take_append_drop (k + 1) s.pending).symm
  rw [List.length_take_of_le hk] at hrun'
  cases hrun.symm.trans hrun'
  have hsome : t.out.isSome = true := by simp [hshown, length_outcomes_observe, hk]
  exact ⟨t, hrun, hshown, hsome, hpending, hqc⟩

/-- Settles O22: at reset no outcome is shown, which is all that `Conforms` asks where none is. -/
theorem resetPortsConform : Obligations.ResetPortsConform := by
  unfold Obligations.ResetPortsConform
  exact trivial

/-- Settles O23: the reset state as it is defined, and O16 for the first command the host issues. -/
theorem resetState : Obligations.ResetState := by
  unfold Obligations.ResetState
  refine ⟨rfl, rfl, rfl, fun p => ?_⟩
  obtain ⟨qc, o, -, hstep⟩ := stepIsFunctionOfQCAndPorts { State.reset with pending := [p] } p [] rfl
  exact ⟨qc, o, hstep⟩

end Sys2Proof.Machine
end

section
/-! PROOFS. The step with no command waiting: the model's choice of notes/assumptions/5.md. -/

namespace Sys2Proof.Machine

/-- Settles O14: the step is `idle`, which clears the outcome alone, and nothing was waiting before it. -/
theorem idleStepHoldsQC : Obligations.IdleStepHoldsQC := by
  unfold Obligations.IdleStepHoldsQC
  intro s hp
  rw [step_of_nil hp, ← hp]
  rfl

end Sys2Proof.Machine
end
